-- ==== Sys2Proof/Word.lean ====
section
/-! DEFINITION. The machine's one word type: every register, address, memory cell and instruction field is a byte
(00_scope.md R5, R6). -/

namespace Sys2Proof

/-- An unsigned 8-bit value 0..255. Its `+` and `-` wrap modulo 256, which is how every address is formed
(20_memory.md R53). -/
abbrev Byte := BitVec 8

end Sys2Proof
end

