-- ==== Sys2Proof/Config.lean ====
section
/-! DEFINITION. The implementation parameters of 00_scope.md R5. The hardware has no optional features and no behaviour
left as a free draw (93_implementation_defined.md, end of part 1), so no constant here is without a body. -/

namespace Sys2Proof.Config

/-- `MEM_SIZE` and `MAX_IMAGE`: 256 cells, all of which an image may fill (R5, 70_reset_and_hazards.md R185). -/
abbrev memSize : Nat := 256

/-- `SP_INIT`: the reset value of R7, the one parameter a model may need to vary (R5, 92_eei_decisions.md D3). -/
def spInit : Byte := 0xF4#8

/-- `LOAD_BASE`, where an image starts, which is also the reset vector (R5, 70_reset_and_hazards.md R181). -/
def loadBase : Byte := 0x00#8

/-- What a memory cell reads as that nothing has written since reset cleared memory (10_state.md R33). -/
def unlistedByte : Byte := 0x00#8

end Sys2Proof.Config
end

