-- ==== Sys2Proof/Machine/State.lean ====
section
/-! DEFINITION. The whole state of the block (10_state.md, opening listing and R20 to R33), the reasons a step can stop,
and the machine right after reset. -/

namespace Sys2Proof.Machine

/-- The memory_array as a list of (address, byte) cells: those that read differently from `Config.unlistedByte`
(10_state.md R30, R33). -/
abbrev Memory := List Host.Cell

/-- The canonical form above a least address: addresses strictly rising and below 256, no cell equal to what an
unlisted address reads as. -/
def Memory.wfFrom (least : Nat) : Memory → Bool
  | [] => true
  | (a, v) :: rest =>
    decide (least ≤ a) && decide (a < Config.memSize) && (v != Config.unlistedByte) && Memory.wfFrom (a + 1) rest

/-- The canonical form of memory: equal memories are equal lists. -/
def Memory.wf (m : Memory) : Bool := Memory.wfFrom 0 m

/-- The run status (10_state.md R27). -/
inductive RunStatus where
  /-- The block takes steps. -/
  | running
  /-- Reached by HLT; terminal. -/
  | halted
  /-- Reached by any fault of 60_exceptions.md; terminal. -/
  | faulted
deriving DecidableEq, Repr

/-- The four fault kinds (60_exceptions.md R160). -/
inductive FaultKind where
  /-- IR is not one of the 13 opcodes (R161). -/
  | invalidInstruction
  /-- A register operand is 8..255 (R162). -/
  | invalidRegister
  /-- The ALU gets an operation tag it does not implement (R163); no opcode drives one. -/
  | unsupportedOperation
  /-- A memory address outside 0..255 (R164); every address wraps, so nothing raises it. -/
  | outOfBoundsAddress
deriving DecidableEq, Repr

/-- The fault record (10_state.md R28). -/
structure FaultRecord where
  kind : FaultKind
  /-- The offending byte: the opcode byte or the register-operand byte. -/
  byte : Byte
  /-- The address of the faulting instruction's opcode byte. -/
  pc : Byte
deriving DecidableEq, Repr

/-- The whole state. The latches IR, operand_a and operand_b live inside one step only (10_state.md R29, log entry 4). -/
structure State where
  /-- The register_file R0..R7 (R20); R7 is SP (R24). -/
  x : Vector Byte 8
  /-- The program counter (R25). -/
  pc : Byte
  /-- The comparison_flag_latch `cmp_flag` (R26). -/
  cmpFlag : Bool
  /-- The memory_array `mem` (R30). -/
  mem : Memory
  /-- The run status (R27). -/
  status : RunStatus
  /-- The fault record, `none` unless Faulted (R28). -/
  fault : Option FaultRecord
  /-- The output stream, in execution order (R32). -/
  out : List Byte
  /-- The level of the `rst` input (R40, R41): the block takes no step while it is asserted. DEDUCED (log entry 3): the
  spec gives it as an input signal; the model keeps its level beside the state it governs. -/
  rst : Bool
deriving DecidableEq, Repr

/-- Why the machine could stop outside the spec's own run statuses. Every fault of the spec is a NEXT state with status
Faulted (60_exceptions.md R165), so this type has one reason, which nothing raises. -/
inductive Fault where
  /-- An access outside 0..255 under the reading of 93_implementation_defined.md I1 that this hardware does not take.
  Raised by nobody: every address is a byte (20_memory.md R53). Safe. -/
  | outsideAddressSpace
deriving DecidableEq, Repr

/-- Why the model could give an instruction no meaning. -/
inductive Refusal where
  /-- The instruction has no meaning in this model yet. Raised by a refused arm of `exec` only, of which there is none.
  Safe. -/
  | notModelled (mnemonic : String)
deriving DecidableEq, Repr

/-- What an instruction or a step answers. -/
abbrev Result := Host.Outcome State Fault Refusal

/-- The registers after reset: R0..R6 zero, R7 = `SP_INIT` (10_state.md R33). -/
def resetRegs (spInit : Byte) : Vector Byte 8 := (Vector.replicate 8 0x00#8).set 7 spInit

/-- The state of 10_state.md R33 for a given `SP_INIT`, with memory cleared and no image, `rst` released. -/
def State.resetWith (spInit : Byte) : State where
  x := resetRegs spInit
  pc := Config.loadBase
  cmpFlag := false
  mem := []
  status := .running
  fault := none
  out := []
  rst := false

/-- The machine right after reset, `SP_INIT` = 0xF4 (10_state.md R33, R41). -/
def State.reset : State := State.resetWith Config.spInit

end Sys2Proof.Machine
end

