-- ==== Sys2Proof/Syntax.lean ====
section
/-! DEFINITION. The 13 instructions of 30_encoding.md R71 and the opcodes they start with. -/

namespace Sys2Proof

/-- One constructor per row of the opcode table. `a` is operand_a and `b` operand_b (R70): register operands are the
whole operand byte, of which only 0..7 names a register (10_state.md R22); `WellFormed` checks that. -/
inductive Instr where
  /-- Halt (R150). -/
  | hlt
  /-- Load immediate (R120). -/
  | ldi (a imm : Byte)
  /-- Output a register (R151). -/
  | prn (a : Byte)
  /-- Multiply registers (R122). -/
  | mul (a b : Byte)
  /-- Add registers (R121). -/
  | add (a b : Byte)
  /-- Push a register (R131). -/
  | push (a : Byte)
  /-- Pop into a register (R132). -/
  | pop (a : Byte)
  /-- Call the subroutine whose address a register holds (R133). -/
  | call (a : Byte)
  /-- Return from subroutine (R134). -/
  | ret
  /-- Compare registers for equality (R140). -/
  | cmp (a b : Byte)
  /-- Jump to the address in a register (R141). -/
  | jmp (a : Byte)
  /-- Jump if the comparison flag is 1 (R142). -/
  | jeq (a : Byte)
  /-- Jump if the comparison flag is 0 (R143). -/
  | jne (a : Byte)
deriving DecidableEq, Repr

/-- The rows of the opcode table without their operands: what the instruction_decoder makes of IR (R73). -/
inductive Opcode where
  | hlt | ldi | prn | mul | add | push | pop | call | ret | cmp | jmp | jeq | jne
deriving DecidableEq, Repr

/-- The ALU's operation input (40_execution_loop.md R111). The decoder drives `add` and `mul` only. `other` stands for
every tag the ALU does not implement; DESIGN CHOICE (log entry 9): the spec names no such tag, so they are numbered by
a byte. -/
inductive AluTag where
  | add
  | mul
  | other (code : Byte)
deriving DecidableEq, Repr

/-- The decoder's `stk` signal (R73): what the instruction does to the stack, and for a push what it stores. -/
inductive StackOp where
  /-- No stack access. -/
  | idle
  /-- SP - 1, then store `x[a]` (PUSH). -/
  | pushReg
  /-- SP - 1, then store the return address pc + 2 (CALL). -/
  | pushReturn
  /-- Read at SP, then SP + 1 (POP, RET). -/
  | pop
deriving DecidableEq, Repr

/-- The inputs of the pc_mux (40_execution_loop.md R107). -/
inductive PcSel where
  /-- `(p + len) mod 256`. -/
  | seq
  /-- `x[a]`, as it stands after the instruction's earlier statements. -/
  | reg
  /-- The byte RET read at SP. -/
  | stack
  /-- `p`, unchanged. -/
  | hold
deriving DecidableEq, Repr

/-- The decoder's `pcsel` signal (R73): a fixed input, or `reg` exactly when `cmp_flag` has the given value and `seq`
otherwise (JEQ, JNE). -/
inductive PcChoice where
  | always (sel : PcSel)
  | regWhenFlag (value : Bool)
deriving DecidableEq, Repr

/-- The control signals of the instruction_decoder, one field per column of R73's table. -/
structure Control where
  /-- The instruction's length in bytes. -/
  len : Nat
  /-- operand_a is a register index to check. -/
  ra : Bool := false
  /-- operand_b is a register index to check. -/
  rb : Bool := false
  /-- operand_b is an immediate. -/
  imm : Bool := false
  /-- Writes `x[a]`. -/
  wa : Bool := false
  /-- The ALU operation. -/
  alu : Option AluTag := none
  /-- Writes `cmp_flag`. -/
  cmp : Bool := false
  /-- The stack operation. -/
  stk : StackOp := .idle
  /-- The pc_mux input. -/
  pcsel : PcChoice := .always .seq
  /-- Halts the block. -/
  halt : Bool := false
  /-- Emits `x[a]`. -/
  out : Bool := false
deriving DecidableEq, Repr

end Sys2Proof
end

