-- ==== Sys2Proof/Machine/Ops.lean ====
section
/-! DEFINITION. The named operations over memory, registers, the stack pointer, the pc, the run status and the output:
the pseudocode primitives of 00_scope.md R7, and taking a fault as one shared operation (60_exceptions.md R165). -/

namespace Sys2Proof.Machine

/-! ### Memory -/

/-- The byte at an address of the list form. -/
def Memory.read : Memory → Nat → Byte
  | [], _ => Config.unlistedByte
  | (a, v) :: rest, addr => if a = addr then v else Memory.read rest addr

/-- Store a byte, keeping the canonical form: storing what an unlisted address reads as removes the cell. -/
def Memory.write : Memory → Nat → Byte → Memory
  | [], addr, v => if v = Config.unlistedByte then [] else [(addr, v)]
  | (a, w) :: rest, addr, v =>
    if addr < a then (if v = Config.unlistedByte then (a, w) :: rest else (addr, v) :: (a, w) :: rest)
    else if addr = a then (if v = Config.unlistedByte then rest else (addr, v) :: rest)
    else (a, w) :: Memory.write rest addr v

/-- `MemRead(addr, 1)` (20_memory.md R51). The address is a byte, so no address outside 0..255 can be formed (R53). -/
def State.readMem (s : State) (addr : Byte) : Byte := s.mem.read addr.toNat

/-- `MemWrite(addr, 1, v)` (R52). -/
def State.writeMem (s : State) (addr v : Byte) : State := { s with mem := s.mem.write addr.toNat v }

/-! ### Registers and the stack pointer -/

/-- `x[i]` (10_state.md R20). -/
def State.readReg (s : State) (r : Fin 8) : Byte := s.x[r]

/-- `x[i] <- v`; no register is hardwired (R20). -/
def State.writeReg (s : State) (r : Fin 8) (v : Byte) : State := { s with x := s.x.set r v }

/-- `SP_INDEX`: R7 is the stack pointer (00_scope.md R5, 10_state.md R24). -/
def spReg : Fin 8 := 7

/-- `SP`, a name for `x[7]` (R24). -/
def State.sp (s : State) : Byte := s.readReg spReg

/-- `x[7] <- (x[7] - 1) mod 256`, before a stack write (42_stack.md R130). -/
def State.decSp (s : State) : State := s.writeReg spReg (s.sp - 1#8)

/-- `x[7] <- (x[7] + 1) mod 256`, after a stack read (R130). -/
def State.incSp (s : State) : State := s.writeReg spReg (s.sp + 1#8)

/-- Push a byte: decrement SP, then store at the new SP. The byte is computed from the state after the decrement, since
statements run in order (00_scope.md R7, 70_reset_and_hazards.md R188). -/
def State.pushByte (s : State) (byteOf : State → Byte) : State := s.decSp.writeMem s.decSp.sp (byteOf s.decSp)

/-! ### Program counter -/

/-- `(p + n) mod 256` (10_state.md R25). -/
def addrPlus (p : Byte) (n : Nat) : Byte := BitVec.ofNat 8 (p.toNat + n)

/-- The pc_mux: the next pc from its four inputs (40_execution_loop.md R107). -/
def pcMux (sel : PcSel) (p : Byte) (len : Nat) (regTarget popped : Byte) : Byte :=
  match sel with
  | .seq => addrPlus p len
  | .reg => regTarget
  | .stack => popped
  | .hold => p

/-- `pc <- (p + len) mod 256`, the sequential next pc (R107 `SEQ`). -/
def State.advance (s : State) (len : Nat) : State := { s with pc := addrPlus s.pc len }

/-- `pc <- target`. -/
def State.jump (s : State) (target : Byte) : State := { s with pc := target }

/-! ### Output and run status -/

/-- `emit(v)`: append to the output stream (10_state.md R32, R43). -/
def State.emit (s : State) (v : Byte) : State := { s with out := s.out ++ [v] }

/-- `status <- Halted` with pc held (44_system_output.md R150). -/
def State.halt (s : State) : State := { s with status := .halted }

/-- TAKING A FAULT (60_exceptions.md R165): `status <- Faulted`, `fault <- (kind, byte, p)`, nothing else; pc stays at
the faulting instruction. There is no vector and no handler (R166), and no instruction returns from a fault (R168):
the way out is reset (`State.driveRst`, Machine/HostPort.lean). -/
def State.takeFault (s : State) (kind : FaultKind) (byte : Byte) : State :=
  { s with status := .faulted, fault := some { kind := kind, byte := byte, pc := s.pc } }

end Sys2Proof.Machine
end

