-- ==== Sys2Proof/Machine/Flags.lean ====
section
/-! DEFINITION. The one flag, `cmp_flag`: the equality comparator that feeds it and the branch conditions that read it
(10_state.md R26; 40_execution_loop.md R112). -/

namespace Sys2Proof.Machine

/-- The comparator: 1 when the two bytes are equal in all 8 bits, 0 when they differ (43_compare_branch.md R140). -/
def equalFlag (u v : Byte) : Bool := u == v

/-- `cmp_flag <- b`. -/
def State.setCmpFlag (s : State) (b : Bool) : State := { s with cmpFlag := b }

/-- The pc_mux input a `pcsel` signal selects at a flag value (30_encoding.md R73, 40_execution_loop.md R107). -/
def pcSelect (c : PcChoice) (flag : Bool) : PcSel :=
  match c with
  | .always sel => sel
  | .regWhenFlag value => if flag = value then .reg else .seq

/-- A conditional jump of length 2: to the register's value when `cmp_flag` has the value the instruction asks for,
sequential otherwise (43_compare_branch.md R142, R143). -/
def State.branchWhen (s : State) (value : Bool) (target : Byte) : State :=
  if s.cmpFlag = value then s.jump target else s.advance 2

end Sys2Proof.Machine
end

