-- ==== Sys2Proof/WellFormed.lean ====
section
/-! DEFINITION. Well-formed instructions: every register operand the instruction uses is 0..7 (30_encoding.md R78).
LDI's immediate is not checked (R75). -/

namespace Sys2Proof

/-- A byte that names a register: 0..7, never masked (10_state.md R22). -/
def isRegister (b : Byte) : Bool := decide (b.toNat < 8)

/-- The operand bytes that are register indices, in the order they are checked: operand_a, operand_b
(30_encoding.md R74, R75). -/
def Instr.registerOperands : Instr → List Byte
  | .hlt => []
  | .ldi a _ => [a]
  | .prn a => [a]
  | .mul a b => [a, b]
  | .add a b => [a, b]
  | .push a => [a]
  | .pop a => [a]
  | .call a => [a]
  | .ret => []
  | .cmp a b => [a, b]
  | .jmp a => [a]
  | .jeq a => [a]
  | .jne a => [a]

/-- The well-formedness check of R78. -/
def Instr.wf (i : Instr) : Bool := i.registerOperands.all isRegister

end Sys2Proof
end

