-- ==== Sys2Proof/Machine/Operands.lean ====
section
/-! DEFINITION. Operand forms (30_encoding.md R74, R75): register operands with their check, and the two-register form.
An immediate is the operand byte as it stands (R82) and needs no operation. -/

namespace Sys2Proof.Machine

/-- The register a register-operand byte names: 0..7 only, never masked or wrapped (10_state.md R22). -/
def regIndex? (b : Byte) : Option (Fin 8) :=
  if h : b.toNat < 8 then some ⟨b.toNat, h⟩ else none

/-- The operand byte that names a register. -/
def regByte (r : Fin 8) : Byte := BitVec.ofNat 8 r.val

/-- A register operand: an instruction goes on with the register it names, or takes InvalidRegister with the operand
byte before any state change (30_encoding.md R78, 60_exceptions.md R162). -/
def withReg (operand : Byte) (s : State) (body : Fin 8 → Result) : Result :=
  match regIndex? operand with
  | some r => body r
  | none => .next (s.takeFault .invalidRegister operand)

/-- Two register operands, operand_a checked before operand_b (40_execution_loop.md R103, 60_exceptions.md R167). -/
def withRegs (a b : Byte) (s : State) (body : Fin 8 → Fin 8 → Result) : Result :=
  withReg a s fun d => withReg b s fun r => body d r

end Sys2Proof.Machine
end

