-- ==== Sys2Proof/Machine/CompareBranch.lean ====
section
/-! DEFINITION. Compare and branch instructions: CMP, JMP, JEQ, JNE (43_compare_branch.md). Targets are absolute and
come from registers; there is no delay slot (R144). -/

namespace Sys2Proof.Machine

/-- CMP (R140): `cmp_flag <- (x[a] = x[b]); pc <- (p + 3) mod 256`. -/
def execCmp (a b : Byte) (s : State) : Result :=
  withRegs a b s fun d r => .next ((s.setCmpFlag (equalFlag (s.readReg d) (s.readReg r))).advance 3)

/-- JMP (R141): `pc <- x[a]`. -/
def execJmp (a : Byte) (s : State) : Result :=
  withReg a s fun r => .next (s.jump (s.readReg r))

/-- JEQ (R142): taken when `cmp_flag` = 1. Its operand is checked whether or not it is taken. -/
def execJeq (a : Byte) (s : State) : Result :=
  withReg a s fun r => .next (s.branchWhen true (s.readReg r))

/-- JNE (R143): taken when `cmp_flag` = 0. Its operand is checked whether or not it is taken. -/
def execJne (a : Byte) (s : State) : Result :=
  withReg a s fun r => .next (s.branchWhen false (s.readReg r))

end Sys2Proof.Machine
end

