-- ==== Sys2Proof/Decode.lean ====
section
/-! DEFINITION. The instruction_decoder (30_encoding.md R71 to R80; 40_execution_loop.md R102, R103), total on any three
bytes and rejecting by name, and after it the encoder. -/

namespace Sys2Proof

/-! ### The opcode table -/

/-- The opcode byte of each row of R71. -/
def Opcode.byte : Opcode → Byte
  | .hlt => 0x01#8
  | .ldi => 0x82#8
  | .prn => 0x47#8
  | .mul => 0xA2#8
  | .add => 0xA0#8
  | .push => 0x45#8
  | .pop => 0x46#8
  | .call => 0x50#8
  | .ret => 0x11#8
  | .cmp => 0xA7#8
  | .jmp => 0x54#8
  | .jeq => 0x55#8
  | .jne => 0x56#8

/-- The 13 rows in the table's order. -/
def Opcode.all : List Opcode :=
  [.hlt, .ldi, .prn, .mul, .add, .push, .pop, .call, .ret, .cmp, .jmp, .jeq, .jne]

/-- Match IR against the 13 values, all 8 bits (R71, R102). `none` is an illegal opcode (R77). -/
def Opcode.ofByte? (ir : Byte) : Option Opcode := Opcode.all.find? fun o => o.byte == ir

/-- The control signals of R73's table, row by row. -/
def Opcode.control : Opcode → Control
  | .hlt => { len := 1, pcsel := .always .hold, halt := true }
  | .ldi => { len := 3, ra := true, imm := true, wa := true }
  | .prn => { len := 2, ra := true, out := true }
  | .mul => { len := 3, ra := true, rb := true, wa := true, alu := some .mul }
  | .add => { len := 3, ra := true, rb := true, wa := true, alu := some .add }
  | .push => { len := 2, ra := true, stk := .pushReg }
  | .pop => { len := 2, ra := true, wa := true, stk := .pop }
  | .call => { len := 2, ra := true, stk := .pushReturn, pcsel := .always .reg }
  | .ret => { len := 1, stk := .pop, pcsel := .always .stack }
  | .cmp => { len := 3, ra := true, rb := true, cmp := true }
  | .jmp => { len := 2, ra := true, pcsel := .always .reg }
  | .jeq => { len := 2, ra := true, pcsel := .regWhenFlag true }
  | .jne => { len := 2, ra := true, pcsel := .regWhenFlag false }

/-- The instruction's length: a function of the opcode alone (R71, R80). -/
def Opcode.length (o : Opcode) : Nat := o.control.len

/-- The instruction an opcode makes with its two fetched operand bytes; bytes the instruction does not have are dropped
(R74 to R76). -/
def Opcode.withOperands (o : Opcode) (a b : Byte) : Instr :=
  match o with
  | .hlt => .hlt
  | .ldi => .ldi a b
  | .prn => .prn a
  | .mul => .mul a b
  | .add => .add a b
  | .push => .push a
  | .pop => .pop a
  | .call => .call a
  | .ret => .ret
  | .cmp => .cmp a b
  | .jmp => .jmp a
  | .jeq => .jeq a
  | .jne => .jne a

/-! ### The decoder -/

/-- What the decoder answers: the instruction, or the check that failed and the byte that failed it. -/
inductive DecodeResult where
  /-- A well-formed instruction. -/
  | ok (i : Instr)
  /-- No row of R71 has this opcode byte (R77). -/
  | illegalOpcode (ir : Byte)
  /-- A register operand of a legal opcode is 8..255 (R78). -/
  | badRegister (operand : Byte)
deriving DecidableEq, Repr

/-- Decode the three fetched bytes. The checks run in R103's order: opcode, operand_a, operand_b. -/
def decode (ir a b : Byte) : DecodeResult :=
  match Opcode.ofByte? ir with
  | none => .illegalOpcode ir
  | some o =>
    if o.control.ra && !isRegister a then .badRegister a
    else if o.control.rb && !isRegister b then .badRegister b
    else .ok (o.withOperands a b)

/-- The decoder's instruction, without the reason where it refuses. -/
def DecodeResult.instr? : DecodeResult → Option Instr
  | .ok i => some i
  | .illegalOpcode _ => none
  | .badRegister _ => none

/-- Decode the bytes at the front of a list, as a fetch at its head would read them; bytes past its end count as 0. -/
def decodeBytes (bytes : List Byte) : DecodeResult :=
  decode (bytes.getD 0 0#8) (bytes.getD 1 0#8) (bytes.getD 2 0#8)

/-! ### The encoder -/

/-- The row of the opcode table an instruction belongs to. -/
def Instr.opcode : Instr → Opcode
  | .hlt => .hlt
  | .ldi _ _ => .ldi
  | .prn _ => .prn
  | .mul _ _ => .mul
  | .add _ _ => .add
  | .push _ => .push
  | .pop _ => .pop
  | .call _ => .call
  | .ret => .ret
  | .cmp _ _ => .cmp
  | .jmp _ => .jmp
  | .jeq _ => .jeq
  | .jne _ => .jne

/-- The operand bytes after the opcode, in ascending address order (R70). -/
def Instr.operandBytes : Instr → List Byte
  | .hlt => []
  | .ldi a imm => [a, imm]
  | .prn a => [a]
  | .mul a b => [a, b]
  | .add a b => [a, b]
  | .push a => [a]
  | .pop a => [a]
  | .call a => [a]
  | .ret => []
  | .cmp a b => [a, b]
  | .jmp a => [a]
  | .jeq a => [a]
  | .jne a => [a]

/-- The bytes of an instruction: the opcode at the lowest address, then its operands (R70, R71). -/
def encode (i : Instr) : List Byte := i.opcode.byte :: i.operandBytes

/-! ### Words numbered as the opcode table numbers them -/

/-- Byte `k` of a table word: bit 0 of the word is bit 0 of the opcode byte, operand_a is bits 15..8 and operand_b bits
23..16; the word has `nbits` bits and every bit above is 0. -/
def tableByte (nbits w k : Nat) : Byte := BitVec.ofNat 8 ((w % 2 ^ nbits) / 2 ^ (8 * k))

/-- The instruction the decoder reads from a word of the opcode table. -/
def decodeTableWord (nbits w : Nat) : Option Instr :=
  (decode (tableByte nbits w 0) (tableByte nbits w 1) (tableByte nbits w 2)).instr?

end Sys2Proof
end

