-- ==== Sys2Proof/Machine/Alu.lean ====
section
/-! DEFINITION. The simple_alu (40_execution_loop.md R108 to R112). -/

namespace Sys2Proof.Machine

/-- ADD: the exact sum of the unsigned bytes, then modulo 256; no carry is recorded (R109). -/
def aluAdd (u v : Byte) : Byte := BitVec.ofNat 8 (u.toNat + v.toNat)

/-- MUL: the exact product of the unsigned bytes, then modulo 256; the high byte is recorded nowhere (R110). -/
def aluMul (u v : Byte) : Byte := BitVec.ofNat 8 (u.toNat * v.toNat)

/-- The ALU's result for an operation tag; `none` for a tag it does not implement (R111). -/
def aluResult (tag : AluTag) (u v : Byte) : Option Byte :=
  match tag with
  | .add => some (aluAdd u v)
  | .mul => some (aluMul u v)
  | .other _ => none

/-- `apply(operation, dest_reg, src_reg)` as a whole instruction of length 3 with opcode byte `ir`: both registers are
read before the destination is written (R108). An unknown tag takes UnsupportedOperation (R111, 60_exceptions.md R163),
which no opcode drives. The ALU writes no flag (R112). -/
def aluApply (tag : AluTag) (ir : Byte) (dest src : Fin 8) (s : State) : Result :=
  match aluResult tag (s.readReg dest) (s.readReg src) with
  | some v => .next ((s.writeReg dest v).advance 3)
  | none => .next (s.takeFault .unsupportedOperation ir)

end Sys2Proof.Machine
end

