-- ==== Sys2Proof/Machine/RegisterAlu.lean ====
section
/-! DEFINITION. Register load and ALU instructions: LDI, ADD, MUL (41_register_alu.md). -/

namespace Sys2Proof.Machine

/-- LDI (R120): `x[a] <- b; pc <- (p + 3) mod 256`. The immediate is never checked. -/
def execLdi (a imm : Byte) (s : State) : Result :=
  withReg a s fun d => .next ((s.writeReg d imm).advance 3)

/-- ADD (R121): `x[a] <- (x[a] + x[b]) mod 256; pc <- (p + 3) mod 256`. -/
def execAdd (a b : Byte) (s : State) : Result :=
  withRegs a b s fun d r => aluApply .add Opcode.add.byte d r s

/-- MUL (R122): `x[a] <- (x[a] * x[b]) mod 256; pc <- (p + 3) mod 256`. -/
def execMul (a b : Byte) (s : State) : Result :=
  withRegs a b s fun d r => aluApply .mul Opcode.mul.byte d r s

end Sys2Proof.Machine
end

