-- ==== Sys2Proof/Machine/Stack.lean ====
section
/-! DEFINITION. Stack instructions: PUSH, POP, CALL, RET (42_stack.md). The hardware never checks the stack (R136). -/

namespace Sys2Proof.Machine

/-- PUSH (R131): `x[7] <- x[7] - 1; MemWrite(x[7], x[a]); pc <- p + 2`. `PUSH R7` stores the decremented SP. -/
def execPush (a : Byte) (s : State) : Result :=
  withReg a s fun r => .next ((s.pushByte fun q => q.readReg r).advance 2)

/-- POP (R132): `x[a] <- MemRead(x[7]); x[7] <- x[7] + 1; pc <- p + 2`. `POP R7` increments the byte it loaded. -/
def execPop (a : Byte) (s : State) : Result :=
  withReg a s fun d => .next ((s.writeReg d (s.readMem s.sp)).incSp.advance 2)

/-- CALL (R133): `x[7] <- x[7] - 1; MemWrite(x[7], p + 2); pc <- x[a]`. `CALL R7` jumps to the decremented SP. -/
def execCall (a : Byte) (s : State) : Result :=
  withReg a s fun r =>
    let pushed := s.pushByte fun q => addrPlus q.pc 2
    .next (pushed.jump (pushed.readReg r))

/-- RET (R134): `t <- MemRead(x[7]); x[7] <- x[7] + 1; pc <- t`. -/
def execRet (s : State) : Result :=
  .next (s.incSp.jump (s.readMem s.sp))

end Sys2Proof.Machine
end

