-- ==== Sys2Proof/Machine/SystemOutput.lean ====
section
/-! DEFINITION. Halt and output instructions: HLT, PRN (44_system_output.md). -/

namespace Sys2Proof.Machine

/-- HLT (R150): `status <- Halted`; pc stays at the HLT. -/
def execHlt (s : State) : Result := .next s.halt

/-- PRN (R151): `emit(x[a]); pc <- (p + 2) mod 256`. -/
def execPrn (a : Byte) (s : State) : Result :=
  withReg a s fun r => .next ((s.emit (s.readReg r)).advance 2)

end Sys2Proof.Machine
end

