-- ==== Sys2Proof/Machine/Fetch.lean ====
section
/-! DEFINITION. One step of a Running block: fetch, decode with its checks, execute (40_execution_loop.md R100 to R105). -/

namespace Sys2Proof.Machine

/-- The latches of 10_state.md R29, which live inside one step. -/
structure Fetched where
  ir : Byte
  a : Byte
  b : Byte
deriving DecidableEq, Repr

/-- Fetch three bytes at pc, pc + 1, pc + 2 modulo 256, whatever the instruction's length (R101). -/
def fetch (s : State) : Fetched where
  ir := s.readMem s.pc
  a := s.readMem (addrPlus s.pc 1)
  b := s.readMem (addrPlus s.pc 2)

/-- Decode and check the fetched bytes, then execute, or take the first check's fault (R102, R103). -/
def runFetched (f : Fetched) (s : State) : Result :=
  match decode f.ir f.a f.b with
  | .ok i => exec i s
  | .illegalOpcode ir => .next (s.takeFault .invalidInstruction ir)
  | .badRegister operand => .next (s.takeFault .invalidRegister operand)

/-- Whether the block takes a step: Running with `rst` released (R100). -/
def State.takesSteps (s : State) : Bool := !s.rst && s.status == .running

/-- Store a table word's three bytes where the next fetch reads them: at pc, pc + 1, pc + 2 modulo 256. -/
def placeWord (s : State) (nbits w : Nat) : State :=
  ((s.writeMem s.pc (tableByte nbits w 0)).writeMem (addrPlus s.pc 1) (tableByte nbits w 1)).writeMem
    (addrPlus s.pc 2) (tableByte nbits w 2)

/-- Let the block take steps: `rst` released, Running, no fault record. -/
def State.enabled (s : State) : State := { s with rst := false, status := .running, fault := none }

end Sys2Proof.Machine
end

