-- ==== Sys2Proof/Machine/Step.lean ====
section
/-! DEFINITION. The step (40_execution_loop.md R100, R106). -/

namespace Sys2Proof.Machine

/-- One step. The block takes none while `rst` is asserted (10_state.md R41) or once it is Halted or Faulted (R106):
the state then stays as it is. DESIGN CHOICE (log entry 2): that is answered as a next state equal to the old one. -/
def step (s : State) : Host.Outcome State Fault Refusal :=
  if s.takesSteps then runFetched (fetch s) s else .next s

/-- The state with the instruction of a table word stored where the next step fetches it, the block set to take that
step (log entry 7). It stands for the host's load of a program. -/
def State.withFetchWord (s : State) (nbits w : Nat) : State := (placeWord s nbits w).enabled

end Sys2Proof.Machine
end

