-- ==== Sys2Proof/Machine/Datapath.lean ====
section
/-! DEFINITION. The block at the level of the decoder's control signals (30_encoding.md R73): register_file, memory_array,
simple_alu, comparison_flag_latch and pc_mux driven by one `Control` word, with no case on the instruction. It is a second
reading of the step, to be compared with the instruction rules that `step` follows. -/

namespace Sys2Proof.Machine

/-- The register a checked operand byte selects; an unchecked byte selects nothing that any signal uses. -/
def regPort (operand : Byte) : Fin 8 := (regIndex? operand).getD 0

/-- What the signals drive onto the write-back bus: the popped byte, the immediate or the ALU result; `none` when the ALU
rejects its tag (40_execution_loop.md R111). -/
def writeBackBus (c : Control) (a b : Byte) (s : State) : Option Byte :=
  match c.alu with
  | some tag => aluResult tag (s.readReg (regPort a)) (s.readReg (regPort b))
  | none => some (if c.imm then b else s.readMem s.sp)

/-- The push half of `stk`: before anything else in the instruction. -/
def stackPush (c : Control) (a : Byte) (s : State) : State :=
  match c.stk with
  | .pushReg => s.pushByte fun q => q.readReg (regPort a)
  | .pushReturn => s.pushByte fun q => addrPlus q.pc 2
  | .idle => s
  | .pop => s

/-- The SP increment of `stk`: after the popped byte has been written back (42_stack.md R132). -/
def stackPop (c : Control) (s : State) : State :=
  match c.stk with
  | .pop => s.incSp
  | .idle => s
  | .pushReg => s
  | .pushReturn => s

/-- The flag latch, the output and the halt signals. -/
def latchStage (c : Control) (a b : Byte) (s : State) : State :=
  let flagged := if c.cmp then s.setCmpFlag (equalFlag (s.readReg (regPort a)) (s.readReg (regPort b))) else s
  let emitted := if c.out then flagged.emit (flagged.readReg (regPort a)) else flagged
  if c.halt then emitted.halt else emitted

/-- One instruction through the datapath, after its checks: push, write back, pop, latch, next pc. -/
def driveSignals (c : Control) (f : Fetched) (s : State) : Result :=
  let popped := s.readMem s.sp
  match writeBackBus c f.a f.b s with
  | none => .next (s.takeFault .unsupportedOperation f.ir)
  | some v =>
    let pushed := stackPush c f.a s
    let written := if c.wa then pushed.writeReg (regPort f.a) v else pushed
    let latched := latchStage c f.a f.b (stackPop c written)
    .next (latched.jump (pcMux (pcSelect c.pcsel s.cmpFlag) s.pc c.len (latched.readReg (regPort f.a)) popped))

/-- One step through the datapath (R100 with R73 in place of the instruction rules). -/
def datapathStep (s : State) : Result :=
  if s.takesSteps then
    let f := fetch s
    match Opcode.ofByte? f.ir with
    | none => .next (s.takeFault .invalidInstruction f.ir)
    | some o =>
      if o.control.ra && !isRegister f.a then .next (s.takeFault .invalidRegister f.a)
      else if o.control.rb && !isRegister f.b then .next (s.takeFault .invalidRegister f.b)
      else driveSignals o.control f s
  else .next s

end Sys2Proof.Machine
end

