-- ==== Sys2Proof/Machine/HostPort.lean ====
section
/-! DEFINITION. The block's interface with its host (10_state.md R40 to R45; 70_reset_and_hazards.md R180 to R185): the
reset input, the load port, boot, and the output, status and fault ports as views of State. -/

namespace Sys2Proof.Machine

/-! ### Reset and load -/

/-- Drive the `rst` input (R41, R182). Becoming asserted puts all state to the values of R33 with memory cleared and
holds the block; being released lets it run. DEDUCED (log entry 3): staying asserted changes nothing, or the image the
host loads meanwhile (R42) would be cleared again. -/
def State.driveRst (s : State) (level : Bool) : State :=
  match level with
  | true => if s.rst then s else { State.reset with rst := true }
  | false => { s with rst := false }

/-- A write strobe on the load port (R42): it stores only while `rst` is asserted and is ignored otherwise. -/
def State.hostWrite (s : State) (addr data : Byte) : State := if s.rst then s.writeMem addr data else s

/-- The host's load of image bytes at ascending addresses from `addr` (R42). -/
def State.loadImage (s : State) (addr : Byte) : List Byte → State
  | [] => s
  | v :: rest => (s.hostWrite addr v).loadImage (addrPlus addr 1) rest

/-- Boot (70_reset_and_hazards.md R184): assert reset, load the image from address 0, release reset. An image over 256
bytes is the host's error and is never given to the block (R185, log entry 8). -/
def State.bootImage (s : State) (image : List Byte) : Option State :=
  if image.length ≤ Config.memSize then
    some (((s.driveRst true).loadImage Config.loadBase image).driveRst false)
  else none

/-- Everything that can change the state (60_exceptions.md R169): a step, the reset input, the load port. -/
inductive Move where
  | step
  | rst (level : Bool)
  | load (addr data : Byte)
deriving DecidableEq, Repr

/-- One move. -/
def applyMove (m : Move) (s : State) : Result :=
  match m with
  | .step => step s
  | .rst level => .next (s.driveRst level)
  | .load addr data => .next (s.hostWrite addr data)

/-- A sequence of moves, stopping at the first that answers no next state. -/
def runMoves : List Move → State → Result
  | [], s => .next s
  | m :: rest, s =>
    match applyMove m s with
    | .next t => runMoves rest t
    | .fault r => .fault r
    | .refused r => .refused r

/-! ### Ports -/

/-- The `status` port's code (R40, R44); 3 is never driven. -/
def statusCode : RunStatus → BitVec 2
  | .running => 0#2
  | .halted => 1#2
  | .faulted => 2#2

/-- The `fault_kind` code of a kind (60_exceptions.md R160). -/
def faultCode : FaultKind → BitVec 3
  | .invalidInstruction => 1#3
  | .invalidRegister => 2#3
  | .unsupportedOperation => 3#3
  | .outOfBoundsAddress => 4#3

/-- The record's code, 0 for no record (R160). The port need not show 0 (10_state.md R45). -/
def recordCode (r : Option FaultRecord) : BitVec 3 :=
  match r with
  | none => 0#3
  | some f => faultCode f.kind

/-- The `status` port always shows the run status (R44). -/
def statusPort (s : State) : BitVec 2 := statusCode s.status

/-- Whether the fault ports may show these values: the record when Faulted, anything at any other status, when their
values are unspecified (R45, log entry 5). -/
def faultPortsMayShow (s : State) (kind : BitVec 3) (byte pc : Byte) : Bool :=
  match s.status, s.fault with
  | .faulted, some f => kind == faultCode f.kind && byte == f.byte && pc == f.pc
  | _, _ => true

/-- `out_valid` and `out_data` of one move (R43): the byte it appended to `out`, if it did (log entry 6). -/
def outPulse (before after : State) : Option Byte := after.out[before.out.length]?

end Sys2Proof.Machine
end

