-- ==== Sys2Proof/Safety.lean ====
section
/-! DEFINITION. What counts as a good state and a safe run, and the vocabulary that claims use to say what a transition
leaves unchanged. -/

namespace Sys2Proof.Machine

/-! ### Runs -/

/-- A safe run of `k` steps: none of its states is Faulted. -/
def safeRun : Nat → State → Bool
  | 0, s => s.status != .faulted
  | k + 1, s =>
    (s.status != .faulted) &&
      match step s with
      | .next t => safeRun k t
      | .fault _ => false
      | .refused _ => false

/-- A status in which no further step is taken (10_state.md R27). -/
def State.terminal (s : State) : Bool := s.status != .running

/-! ### The invariant -/

/-- What holds of every state the block and its host can reach. -/
structure Inv (s : State) : Prop where
  /-- Memory is in its canonical form. -/
  memory_canonical : s.mem.wf = true
  /-- There is a fault record exactly when the status is Faulted (10_state.md R28). -/
  record_when_faulted : s.fault.isSome = true ↔ s.status = .faulted
  /-- The record's pc is the address of the faulting instruction, where pc stays (60_exceptions.md R165). -/
  record_at_pc : ∀ r, s.fault = some r → r.pc = s.pc
  /-- The record names one of the two reachable causes, and memory at pc still shows it (R161, R162). -/
  record_cause : ∀ r, s.fault = some r →
    (r.kind = .invalidInstruction ∧ r.byte = s.readMem s.pc ∧ Opcode.ofByte? r.byte = none) ∨
    (r.kind = .invalidRegister ∧ 8 ≤ r.byte.toNat ∧ (Opcode.ofByte? (s.readMem s.pc)).isSome = true ∧
      (r.byte = s.readMem (addrPlus s.pc 1) ∨ r.byte = s.readMem (addrPlus s.pc 2)))
  /-- A halted block stands at its HLT (44_system_output.md R150). -/
  halted_at_hlt : s.status = .halted → s.readMem s.pc = 0x01#8
  /-- While `rst` is asserted only memory can differ from the reset values (10_state.md R41). DEDUCED (log entry 3): those
  values count `status` as Running already, which R33 gives it once `rst` is released. -/
  held_in_reset : s.rst = true → s = { State.reset with rst := true, mem := s.mem }

/-! ### Frames -/

/-- Every register keeps its value but those listed. -/
def KeepsRegsBut (changed : List (Fin 8)) (s t : State) : Prop :=
  ∀ r : Fin 8, r ∉ changed → t.readReg r = s.readReg r

/-- Every byte of memory reads as before. -/
def KeepsMem (s t : State) : Prop := ∀ addr : Byte, t.readMem addr = s.readMem addr

/-- Every byte of memory reads as before but the one at `stored`. -/
def KeepsMemBut (stored : Byte) (s t : State) : Prop :=
  ∀ addr : Byte, addr ≠ stored → t.readMem addr = s.readMem addr

/-- The block goes on as it was: status, fault record and `rst` are unchanged. -/
def KeepsRunState (s t : State) : Prop := t.status = s.status ∧ t.fault = s.fault ∧ t.rst = s.rst

/-- The transition took a fault with this kind and byte and changed nothing else (60_exceptions.md R165). -/
def FaultTaken (kind : FaultKind) (byte : Byte) (s t : State) : Prop :=
  t.status = .faulted ∧ t.fault = some { kind := kind, byte := byte, pc := s.pc } ∧
    t.x = s.x ∧ t.mem = s.mem ∧ t.cmpFlag = s.cmpFlag ∧ t.out = s.out ∧ t.pc = s.pc ∧ t.rst = s.rst

/-- The instruction's bytes stand where the next step of a Running block fetches: at pc and on, modulo 256
(30_encoding.md R70). -/
def Placed (i : Instr) (s : State) : Prop :=
  s.status = .running ∧ s.rst = false ∧
    ∀ k v, (encode i)[k]? = some v → s.readMem (addrPlus s.pc k) = v


end Sys2Proof.Machine
end

