-- ==== Sys2Proof/Certificates/Slice0/Obligations.lean ====
section
/-! DEFINITION. The statements for the provers: the rules of spec/ about reset, the step, each instruction, faults, memory,
output and the host's ports, and properties of the whole machine that follow from them. -/

open Sys2Proof Sys2Proof.Machine

/-! ### Encoding and decoding -/

/-- 30_encoding.md R70, R71: one word of each length and format, written out from the table. -/
def Obligations.DecodesWordsOfTheTable : Prop :=
  decode 0b00000001#8 0x00#8 0x00#8 = .ok .hlt ∧
  decode 0b00010001#8 0xFF#8 0xFF#8 = .ok .ret ∧
  decode 0b10000010#8 0x01#8 0x0B#8 = .ok (.ldi 0x01#8 0x0B#8) ∧
  decode 0b01000111#8 0x07#8 0xFF#8 = .ok (.prn 0x07#8) ∧
  decode 0b01010110#8 0x03#8 0x01#8 = .ok (.jne 0x03#8) ∧
  decode 0b10100010#8 0x00#8 0x01#8 = .ok (.mul 0x00#8 0x01#8) ∧
  decode 0b10100000#8 0x09#8 0x0C#8 = .badRegister 0x09#8 ∧
  decode 0b10100000#8 0x07#8 0x0C#8 = .badRegister 0x0C#8 ∧
  decode 0b10100001#8 0x09#8 0x00#8 = .illegalOpcode 0xA1#8

/-- 30_encoding.md R70, R71, R74 to R76: every well-formed instruction decodes from its own bytes, whatever follows them. -/
def Obligations.DecodeOfEncodeIsTheInstruction : Prop :=
  ∀ (i : Instr) (following : List Byte), i.wf = true → decodeBytes (encode i ++ following) = .ok i

/-- 30_encoding.md R71, R78, R80: an accepted word has one meaning, a well-formed instruction whose bytes are the word's
first ones. -/
def Obligations.EncodeOfDecodeIsTheWord : Prop :=
  ∀ (ir a b : Byte) (i : Instr), decode ir a b = .ok i →
    i.wf = true ∧ encode i = [ir, a, b].take i.opcode.length ∧ 1 ≤ i.opcode.length ∧ i.opcode.length ≤ 3

/-- 30_encoding.md R80: the length is a function of the opcode byte, so no encoding is the beginning of another's. -/
def Obligations.EncodingsArePrefixFree : Prop :=
  ∀ (i j : Instr) (following : List Byte), encode i <+: encode j ++ following → i = j

/-- 30_encoding.md R77: the 243 byte values outside R71 are illegal opcodes, whatever follows them, and fetching one
raises InvalidInstruction with that byte and the current pc. -/
def Obligations.IllegalOpcodesAreTheOther243 : Prop :=
  let legal : List Byte := [0x01#8, 0x11#8, 0x45#8, 0x46#8, 0x47#8, 0x50#8, 0x54#8, 0x55#8, 0x56#8, 0x82#8, 0xA0#8,
    0xA2#8, 0xA7#8]
  (∀ ir a b : Byte, decode ir a b = .illegalOpcode ir ↔ ir ∉ legal) ∧
  ((List.range 256).filter fun n => BitVec.ofNat 8 n ∉ legal).length = 243 ∧
  ∀ s : State, s.status = .running → s.rst = false → s.readMem s.pc ∉ legal →
    ∃ t, step s = .next t ∧ FaultTaken .invalidInstruction (s.readMem s.pc) s t

/-- 30_encoding.md R72: the bit pattern the 13 opcodes happen to share, and that it is no decoding rule: a byte that is no
row's is illegal whatever its bits. -/
def Obligations.OpcodeBitsShareAPattern : Prop :=
  (∀ (ir a b : Byte), (∀ o : Opcode, o.byte ≠ ir) → decode ir a b = .illegalOpcode ir) ∧
  ∀ o : Opcode,
    (o.byte >>> 6).toNat = o.length - 1 ∧ (o.byte >>> 6).toNat + 1 = o.length ∧
    (o.byte.getLsbD 5 = true ↔ o ∈ [Opcode.add, Opcode.mul, Opcode.cmp]) ∧
    (o.byte.getLsbD 4 = true ↔ o ∈ [Opcode.call, Opcode.ret, Opcode.jmp, Opcode.jeq, Opcode.jne])

/-! ### The step -/

/-- 40_execution_loop.md R100, R104: when the bytes at pc, pc + 1, pc + 2 decode to an instruction, it is well formed and
the step of a Running block is its execution; the same when a well-formed instruction's own bytes stand there. -/
def Obligations.StepRunsDecodedInstruction : Prop :=
  (∀ (s : State) (i : Instr), s.status = .running → s.rst = false →
    decode (s.readMem s.pc) (s.readMem (addrPlus s.pc 1)) (s.readMem (addrPlus s.pc 2)) = .ok i →
      i.wf = true ∧ step s = exec i s) ∧
  (∀ (s : State) (i : Instr), i.wf = true → Placed i s → step s = exec i s)

/-- 40_execution_loop.md R103: the checks of a step in their order, the fault each raises, and that a step past them runs
the instruction whose bytes were fetched. -/
def Obligations.StepChecksInOrderThenExecutes : Prop :=
  let legal : List Byte := [0x01#8, 0x11#8, 0x45#8, 0x46#8, 0x47#8, 0x50#8, 0x54#8, 0x55#8, 0x56#8, 0x82#8, 0xA0#8,
    0xA2#8, 0xA7#8]
  let noRegister : List Byte := [0x01#8, 0x11#8]
  let twoRegisters : List Byte := [0xA0#8, 0xA2#8, 0xA7#8]
  ∀ s : State, s.status = .running → s.rst = false →
    let ir := s.readMem s.pc
    let a := s.readMem (s.pc + 1#8)
    let b := s.readMem (s.pc + 2#8)
    if ir ∉ legal then ∃ t, step s = .next t ∧ FaultTaken .invalidInstruction ir s t
    else if ir ∉ noRegister ∧ 8 ≤ a.toNat then ∃ t, step s = .next t ∧ FaultTaken .invalidRegister a s t
    else if ir ∈ twoRegisters ∧ 8 ≤ b.toNat then ∃ t, step s = .next t ∧ FaultTaken .invalidRegister b s t
    else ∃ i : Instr, i.wf = true ∧ encode i <+: [ir, a, b] ∧ step s = exec i s

/-- 40_execution_loop.md R113: a step of a Running block completes its instruction, halts, or faults; it never waits.
Halting is HLT's, and a fault is InvalidInstruction or InvalidRegister. -/
def Obligations.RunningStepCompletesHaltsOrFaults : Prop :=
  ∀ s : State, s.status = .running → s.rst = false → ∃ t, step s = .next t ∧
    ((t.status = .running ∧ t.fault = s.fault ∧ s.readMem s.pc ≠ 0x01#8) ∨
     (t.status = .halted ∧ s.readMem s.pc = 0x01#8 ∧ t = { s with status := .halted }) ∨
     (∃ kind byte, (kind = .invalidInstruction ∨ kind = .invalidRegister) ∧ FaultTaken kind byte s t))

/-- 40_execution_loop.md R106 and 70_reset_and_hazards.md R182: no step is taken in Halted or Faulted, the state stays,
whatever the host does short of asserting reset, and asserting reset leaves them. That a block which takes no step answers
its unchanged state as the next one is the model's choice (log entry 2), and so is what `status` shows under reset (log
entry 3). -/
def Obligations.TerminalStatesWaitForReset : Prop :=
  ∀ s : State, s.rst = false → s.status ≠ .running →
    (∀ k, Sys2Proof.core.run k s = .next s) ∧
    (∀ moves : List Move, Move.rst true ∉ moves → runMoves moves s = .next s) ∧
    (s.driveRst true).status = .running

/-- 40_execution_loop.md R107: the next pc of every step that does not fault, from the opcode byte, the flag, the register
operand_a names (as it stands after the instruction's earlier statements, which is how it stands after the step) and the
stacked byte; a step that faults holds pc. -/
def Obligations.NextPcFollowsThePcMux : Prop :=
  ∀ s t : State, s.status = .running → s.rst = false → step s = .next t →
    let ir := s.readMem s.pc
    (t.status = .faulted → t.pc = s.pc) ∧
    (t.status ≠ .faulted →
      (ir ∈ [0x82#8, 0xA2#8, 0xA0#8, 0xA7#8] → t.pc.toNat = (s.pc.toNat + 3) % 256) ∧
      (ir ∈ [0x47#8, 0x45#8, 0x46#8] → t.pc.toNat = (s.pc.toNat + 2) % 256) ∧
      (ir = 0x55#8 → s.cmpFlag = false → t.pc.toNat = (s.pc.toNat + 2) % 256) ∧
      (ir = 0x56#8 → s.cmpFlag = true → t.pc.toNat = (s.pc.toNat + 2) % 256) ∧
      (ir ∈ [0x50#8, 0x54#8] ∨ (ir = 0x55#8 ∧ s.cmpFlag = true) ∨ (ir = 0x56#8 ∧ s.cmpFlag = false) →
        ∃ r : Fin 8, s.readMem (s.pc + 1#8) = regByte r ∧ t.pc = t.readReg r) ∧
      (ir = 0x11#8 → t.pc = s.readMem (s.readReg 7)) ∧
      (ir = 0x01#8 → t.pc = s.pc))

/-- 30_encoding.md R73 with 40_execution_loop.md R107 and R111: the machine driven by the decoder's control signals, with
no case on the instruction, takes the same step as the machine that follows the instruction rules, from every state. -/
def Obligations.ControlSignalsImplementTheInstructions : Prop :=
  ∀ s : State, datapathStep s = step s

/-! ### The instructions -/

/-- 41_register_alu.md R120. -/
def Obligations.LdiLoadsTheImmediate : Prop :=
  (∀ a imm : Byte, encode (.ldi a imm) = [0x82#8, a, imm]) ∧
  (∀ (d : Fin 8) (imm : Byte) (s : State), ∃ t, exec (.ldi (regByte d) imm) s = .next t ∧
    (Placed (.ldi (regByte d) imm) s → step s = .next t) ∧
    t.readReg d = imm ∧ KeepsRegsBut [d] s t ∧ t.pc.toNat = (s.pc.toNat + 3) % 256 ∧
    t.cmpFlag = s.cmpFlag ∧ KeepsMem s t ∧ t.out = s.out ∧ KeepsRunState s t) ∧
  (∀ (a imm : Byte) (s : State), 8 ≤ a.toNat → ∃ t, exec (.ldi a imm) s = .next t ∧
    (Placed (.ldi a imm) s → step s = .next t) ∧ FaultTaken .invalidRegister a s t)

/-- 41_register_alu.md R121: the sum modulo 256 of the old values, the flag and everything else unchanged; a bad operand_a
is reported before a bad operand_b. -/
def Obligations.AddWritesTheSumModulo256 : Prop :=
  (∀ a b : Byte, encode (.add a b) = [0xA0#8, a, b]) ∧
  (∀ (d r : Fin 8) (s : State), ∃ t, exec (.add (regByte d) (regByte r)) s = .next t ∧
    (Placed (.add (regByte d) (regByte r)) s → step s = .next t) ∧
    (t.readReg d).toNat = ((s.readReg d).toNat + (s.readReg r).toNat) % 256 ∧ KeepsRegsBut [d] s t ∧
    t.pc.toNat = (s.pc.toNat + 3) % 256 ∧ t.cmpFlag = s.cmpFlag ∧ KeepsMem s t ∧ t.out = s.out ∧ KeepsRunState s t) ∧
  (∀ (a b : Byte) (s : State), 8 ≤ a.toNat ∨ 8 ≤ b.toNat → ∃ t, exec (.add a b) s = .next t ∧
    (Placed (.add a b) s → step s = .next t) ∧ FaultTaken .invalidRegister (if 8 ≤ a.toNat then a else b) s t)

/-- 41_register_alu.md R122: the low 8 bits of the product of the old values, the flag and everything else unchanged; a bad
operand_a is reported before a bad operand_b. -/
def Obligations.MulWritesTheProductModulo256 : Prop :=
  (∀ a b : Byte, encode (.mul a b) = [0xA2#8, a, b]) ∧
  (∀ (d r : Fin 8) (s : State), ∃ t, exec (.mul (regByte d) (regByte r)) s = .next t ∧
    (Placed (.mul (regByte d) (regByte r)) s → step s = .next t) ∧
    (t.readReg d).toNat = ((s.readReg d).toNat * (s.readReg r).toNat) % 256 ∧ KeepsRegsBut [d] s t ∧
    t.pc.toNat = (s.pc.toNat + 3) % 256 ∧ t.cmpFlag = s.cmpFlag ∧ KeepsMem s t ∧ t.out = s.out ∧ KeepsRunState s t) ∧
  (∀ (a b : Byte) (s : State), 8 ≤ a.toNat ∨ 8 ≤ b.toNat → ∃ t, exec (.mul a b) s = .next t ∧
    (Placed (.mul a b) s → step s = .next t) ∧ FaultTaken .invalidRegister (if 8 ≤ a.toNat then a else b) s t)

/-- 40_execution_loop.md R109, R110: the ALU's results as unsigned bytes, and that the low 8 bits are the same under a
signed reading of the operands. -/
def Obligations.AluResultsWrapUnderBothReadings : Prop :=
  ∀ u v : Byte,
    aluResult .add u v = some (BitVec.ofInt 8 (u.toInt + v.toInt)) ∧
    (aluAdd u v).toNat = (u.toNat + v.toNat) % 256 ∧
    aluResult .mul u v = some (BitVec.ofInt 8 (u.toInt * v.toInt)) ∧
    (aluMul u v).toNat = (u.toNat * v.toNat) % 256

/-- 42_stack.md R131: SP is decremented first, then the register's byte as it then stands is stored at the new SP, which is
the one byte of memory that may change. -/
def Obligations.PushStoresBelowTheOldSp : Prop :=
  (∀ a : Byte, encode (.push a) = [0x45#8, a]) ∧
  (∀ (r : Fin 8) (s : State), s.mem.wf = true → ∃ t, exec (.push (regByte r)) s = .next t ∧
    (Placed (.push (regByte r)) s → step s = .next t) ∧
    s.decSp.sp = s.readReg 7 - 1#8 ∧ t.readReg 7 = s.decSp.sp ∧ KeepsRegsBut [7] s t ∧
    t.readMem s.decSp.sp = (if r = 7 then s.decSp.sp else s.readReg r) ∧ KeepsMemBut s.decSp.sp s t ∧
    t.pc.toNat = (s.pc.toNat + 2) % 256 ∧ t.cmpFlag = s.cmpFlag ∧ t.out = s.out ∧ KeepsRunState s t) ∧
  (∀ (a : Byte) (s : State), 8 ≤ a.toNat → ∃ t, exec (.push a) s = .next t ∧
    (Placed (.push a) s → step s = .next t) ∧ FaultTaken .invalidRegister a s t)

/-- 42_stack.md R132: the byte at SP is loaded, then x[7] is incremented, so `POP R7` gives the popped byte plus one; no
cell is cleared. -/
def Obligations.PopLoadsThenIncrementsSp : Prop :=
  (∀ a : Byte, encode (.pop a) = [0x46#8, a]) ∧
  (∀ (d : Fin 8) (s : State), ∃ t, exec (.pop (regByte d)) s = .next t ∧
    (Placed (.pop (regByte d)) s → step s = .next t) ∧
    t.readReg d = (if d = 7 then s.readMem (s.readReg 7) + 1#8 else s.readMem (s.readReg 7)) ∧
    (d ≠ 7 → t.readReg 7 = s.readReg 7 + 1#8) ∧ KeepsRegsBut [d, 7] s t ∧ KeepsMem s t ∧
    t.pc.toNat = (s.pc.toNat + 2) % 256 ∧ t.cmpFlag = s.cmpFlag ∧ t.out = s.out ∧ KeepsRunState s t) ∧
  (∀ (a : Byte) (s : State), 8 ≤ a.toNat → ∃ t, exec (.pop a) s = .next t ∧
    (Placed (.pop a) s → step s = .next t) ∧ FaultTaken .invalidRegister a s t)

/-- 42_stack.md R133: the return address pc + 2 is pushed, then pc becomes the register, which for R7 is the decremented
SP. -/
def Obligations.CallPushesReturnAddressAndJumps : Prop :=
  (∀ a : Byte, encode (.call a) = [0x50#8, a]) ∧
  (∀ (r : Fin 8) (s : State), s.mem.wf = true → ∃ t, exec (.call (regByte r)) s = .next t ∧
    (Placed (.call (regByte r)) s → step s = .next t) ∧
    s.decSp.sp = s.readReg 7 - 1#8 ∧ t.readReg 7 = s.decSp.sp ∧ KeepsRegsBut [7] s t ∧
    (t.readMem s.decSp.sp).toNat = (s.pc.toNat + 2) % 256 ∧ KeepsMemBut s.decSp.sp s t ∧
    t.pc = (if r = 7 then s.decSp.sp else s.readReg r) ∧
    t.cmpFlag = s.cmpFlag ∧ t.out = s.out ∧ KeepsRunState s t) ∧
  (∀ (a : Byte) (s : State), 8 ≤ a.toNat → ∃ t, exec (.call a) s = .next t ∧
    (Placed (.call a) s → step s = .next t) ∧ FaultTaken .invalidRegister a s t)

/-- 42_stack.md R134: pc becomes the byte at SP and SP is incremented; RET raises no fault. -/
def Obligations.RetPopsThePc : Prop :=
  encode .ret = [0x11#8] ∧
  ∀ s : State, ∃ t, exec .ret s = .next t ∧ (Placed .ret s → step s = .next t) ∧
    t.pc = s.readMem (s.readReg 7) ∧ t.readReg 7 = s.readReg 7 + 1#8 ∧ KeepsRegsBut [7] s t ∧ KeepsMem s t ∧
    t.cmpFlag = s.cmpFlag ∧ t.out = s.out ∧ KeepsRunState s t

/-- 43_compare_branch.md R140: the flag becomes 1 exactly when the two registers are equal, whatever it was; no register is
written; the flag then stays through every step that is no CMP. -/
def Obligations.CmpLatchesEquality : Prop :=
  (∀ a b : Byte, encode (.cmp a b) = [0xA7#8, a, b]) ∧
  (∀ (d r : Fin 8) (s : State), ∃ t, exec (.cmp (regByte d) (regByte r)) s = .next t ∧
    (Placed (.cmp (regByte d) (regByte r)) s → step s = .next t) ∧
    (t.cmpFlag = true ↔ s.readReg d = s.readReg r) ∧ KeepsRegsBut [] s t ∧
    t.pc.toNat = (s.pc.toNat + 3) % 256 ∧ KeepsMem s t ∧ t.out = s.out ∧ KeepsRunState s t) ∧
  (∀ s t : State, step s = .next t → s.readMem s.pc ≠ 0xA7#8 → t.cmpFlag = s.cmpFlag) ∧
  (∀ (a b : Byte) (s : State), 8 ≤ a.toNat ∨ 8 ≤ b.toNat → ∃ t, exec (.cmp a b) s = .next t ∧
    (Placed (.cmp a b) s → step s = .next t) ∧ FaultTaken .invalidRegister (if 8 ≤ a.toNat then a else b) s t)

/-- 43_compare_branch.md R141: pc becomes the register's value; a jump to its own address leaves the whole state as it
was. -/
def Obligations.JmpGoesToTheRegister : Prop :=
  (∀ a : Byte, encode (.jmp a) = [0x54#8, a]) ∧
  (∀ (r : Fin 8) (s : State), ∃ t, exec (.jmp (regByte r)) s = .next t ∧
    (Placed (.jmp (regByte r)) s → step s = .next t) ∧
    t.pc = s.readReg r ∧ KeepsRegsBut [] s t ∧ t.cmpFlag = s.cmpFlag ∧ KeepsMem s t ∧ t.out = s.out ∧
    KeepsRunState s t ∧ (s.readReg r = s.pc → t = s)) ∧
  (∀ (a : Byte) (s : State), 8 ≤ a.toNat → ∃ t, exec (.jmp a) s = .next t ∧
    (Placed (.jmp a) s → step s = .next t) ∧ FaultTaken .invalidRegister a s t)

/-- 43_compare_branch.md R142: taken exactly when the flag is 1, which it is not at reset; a bad register faults either
way. -/
def Obligations.JeqBranchesWhenFlagIsOne : Prop :=
  State.reset.cmpFlag = false ∧
  (∀ a : Byte, encode (.jeq a) = [0x55#8, a]) ∧
  (∀ (r : Fin 8) (s : State), ∃ t, exec (.jeq (regByte r)) s = .next t ∧
    (Placed (.jeq (regByte r)) s → step s = .next t) ∧
    (s.cmpFlag = true → t.pc = s.readReg r) ∧ (s.cmpFlag = false → t.pc.toNat = (s.pc.toNat + 2) % 256) ∧
    KeepsRegsBut [] s t ∧ t.cmpFlag = s.cmpFlag ∧ KeepsMem s t ∧ t.out = s.out ∧ KeepsRunState s t) ∧
  (∀ (a : Byte) (s : State), 8 ≤ a.toNat → ∃ t, exec (.jeq a) s = .next t ∧
    (Placed (.jeq a) s → step s = .next t) ∧ FaultTaken .invalidRegister a s t)

/-- 43_compare_branch.md R143: taken exactly when the flag is 0, which it is at reset; a bad register faults either way;
at the same flag value JEQ and JNE go opposite ways. -/
def Obligations.JneBranchesWhenFlagIsZero : Prop :=
  State.reset.cmpFlag = false ∧
  (∀ (r : Fin 8) (s e n : State), exec (.jeq (regByte r)) s = .next e → exec (.jne (regByte r)) s = .next n →
    (e.pc = s.readReg r ∧ n.pc = addrPlus s.pc 2) ∨ (n.pc = s.readReg r ∧ e.pc = addrPlus s.pc 2)) ∧
  (∀ a : Byte, encode (.jne a) = [0x56#8, a]) ∧
  (∀ (r : Fin 8) (s : State), ∃ t, exec (.jne (regByte r)) s = .next t ∧
    (Placed (.jne (regByte r)) s → step s = .next t) ∧
    (s.cmpFlag = false → t.pc = s.readReg r) ∧ (s.cmpFlag = true → t.pc.toNat = (s.pc.toNat + 2) % 256) ∧
    KeepsRegsBut [] s t ∧ t.cmpFlag = s.cmpFlag ∧ KeepsMem s t ∧ t.out = s.out ∧ KeepsRunState s t) ∧
  (∀ (a : Byte) (s : State), 8 ≤ a.toNat → ∃ t, exec (.jne a) s = .next t ∧
    (Placed (.jne a) s → step s = .next t) ∧ FaultTaken .invalidRegister a s t)

/-- 44_system_output.md R150: Halted with pc held and everything else kept, in a state whose block takes no step. -/
def Obligations.HltHaltsAndHoldsThePc : Prop :=
  encode .hlt = [0x01#8] ∧
  ∀ s : State, ∃ t, exec .hlt s = .next t ∧ (Placed .hlt s → step s = .next t) ∧
    t.status = .halted ∧ t.pc = s.pc ∧ KeepsRegsBut [] s t ∧ t.cmpFlag = s.cmpFlag ∧ KeepsMem s t ∧ t.out = s.out ∧
    t.fault = s.fault ∧ t.rst = s.rst ∧ t.takesSteps = false

/-- 44_system_output.md R151 and 10_state.md R43: the register's byte is appended to the output and pulsed on `out_data`;
a faulting PRN emits nothing. Reading the pulse off the transition is the model's choice (log entry 6). -/
def Obligations.PrnAppendsTheRegister : Prop :=
  (∀ a : Byte, encode (.prn a) = [0x47#8, a]) ∧
  (∀ (r : Fin 8) (s : State), ∃ t, exec (.prn (regByte r)) s = .next t ∧
    (Placed (.prn (regByte r)) s → step s = .next t) ∧
    t.out = s.out ++ [s.readReg r] ∧ outPulse s t = some (s.readReg r) ∧
    t.pc.toNat = (s.pc.toNat + 2) % 256 ∧ KeepsRegsBut [] s t ∧ t.cmpFlag = s.cmpFlag ∧ KeepsMem s t ∧
    KeepsRunState s t) ∧
  (∀ (a : Byte) (s : State), 8 ≤ a.toNat → ∃ t, exec (.prn a) s = .next t ∧
    (Placed (.prn a) s → step s = .next t) ∧ FaultTaken .invalidRegister a s t ∧ outPulse s t = none)

/-- 42_stack.md R135: PUSH then POP of the same register, R7 included, restores every register; CALL then RET returns to the
instruction after the CALL with SP unchanged, when RET runs with the SP the CALL left and the return slot as it left it. -/
def Obligations.StackRoundTrips : Prop :=
  (∀ (r : Fin 8) (s t : State), s.mem.wf = true → exec (.push (regByte r)) s = .next t →
    ∃ u, exec (.pop (regByte r)) t = .next u ∧ (∀ q : Fin 8, u.readReg q = s.readReg q)) ∧
  (∀ (r : Fin 8) (s t u : State), s.mem.wf = true → exec (.call (regByte r)) s = .next t →
    u.readReg 7 = t.readReg 7 → u.readMem (t.readReg 7) = t.readMem (t.readReg 7) →
    ∃ v, exec .ret u = .next v ∧ v.pc.toNat = (s.pc.toNat + 2) % 256 ∧ v.readReg 7 = s.readReg 7)

/-- 43_compare_branch.md R144: after a CMP, JEQ goes to its register's value exactly when the compared registers were equal
and JNE exactly when they differed; otherwise each continues after itself. -/
def Obligations.CompareThenBranchGoesOppositeWays : Prop :=
  ∀ (d r target : Fin 8) (s t : State), exec (.cmp (regByte d) (regByte r)) s = .next t →
    ∃ e n, exec (.jeq (regByte target)) t = .next e ∧ exec (.jne (regByte target)) t = .next n ∧
      (s.readReg d = s.readReg r → e.pc = s.readReg target ∧ n.pc.toNat = (s.pc.toNat + 5) % 256) ∧
      (s.readReg d ≠ s.readReg r → n.pc = s.readReg target ∧ e.pc.toNat = (s.pc.toNat + 5) % 256)

/-! ### Faults -/

/-- 60_exceptions.md R165: a step that ends Faulted has written no register, no memory cell, no flag and no output and left
pc at the faulting instruction. -/
def Obligations.FaultsArePrecise : Prop :=
  ∀ s t : State, s.status = .running → step s = .next t → t.status = .faulted →
    ∃ kind byte, FaultTaken kind byte s t

/-- 60_exceptions.md R163: the ALU rejects a tag other than ADD and MUL with UnsupportedOperation, but the decoder drives
no such tag, and no run of any memory contents ever reports it, nor OutOfBoundsAddress (R164). Numbering the other tags by a byte is the model's choice (log
entry 9). -/
def Obligations.UnsupportedOperationIsUnreachable : Prop :=
  (∀ (code ir : Byte) (d r : Fin 8) (s : State), ∃ t, aluApply (.other code) ir d r s = .next t ∧
    FaultTaken .unsupportedOperation ir s t) ∧
  (∀ (o : Opcode) (tag : AluTag), o.control.alu = some tag → tag = .add ∨ tag = .mul) ∧
  (∀ (k : Nat) (s t : State), s.fault = none → Sys2Proof.core.run k s = .next t →
    ∀ f, t.fault = some f → f.kind = .invalidInstruction ∨ f.kind = .invalidRegister)

/-! ### State by state: the flag, the output, the registers, memory -/

/-- 10_state.md R26: the flag resets to 0; only CMP writes it, and only JEQ and JNE read it: a step of any other
instruction from the same state with another flag value gives the same state with that flag value, and a step of CMP that
does not fault gives the same state whatever the flag was. -/
def Obligations.FlagIsCmpsToWriteAndBranchesToRead : Prop :=
  State.reset.cmpFlag = false ∧
  (∀ (d r : Fin 8) (s : State), ∃ t, exec (.cmp (regByte d) (regByte r)) s = .next t ∧
    t.cmpFlag = decide (s.readReg d = s.readReg r)) ∧
  (∀ s t : State, step s = .next t → s.readMem s.pc ≠ 0xA7#8 → t.cmpFlag = s.cmpFlag) ∧
  (∀ s t : State, step s = .next t → t.status = .faulted → t.cmpFlag = s.cmpFlag) ∧
  (∀ (s t : State) (flag : Bool), step s = .next t →
    s.readMem s.pc ∉ [0x55#8, 0x56#8, 0xA7#8] → step { s with cmpFlag := flag } = .next { t with cmpFlag := flag }) ∧
  (∀ (s t : State) (flag : Bool), s.status = .running → s.rst = false → step s = .next t → t.status ≠ .faulted →
    s.readMem s.pc = 0xA7#8 → step { s with cmpFlag := flag } = .next t)

/-- 10_state.md R32: `out` resets to empty; a step of a Running block whose opcode is PRN's appends the register's byte
unless it faults; every other step, and one that faults, leaves `out` as it was, so nothing removes from it. -/
def Obligations.OutputIsAppendedByPrnOnly : Prop :=
  State.reset.out = [] ∧
  ∀ s t : State, step s = .next t →
    (s.status = .running → s.rst = false → s.readMem s.pc = 0x47#8 → t.status ≠ .faulted →
      ∃ r : Fin 8, s.readMem (s.pc + 1#8) = regByte r ∧ t.out = s.out ++ [s.readReg r]) ∧
    (s.status ≠ .running ∨ s.rst = true ∨ s.readMem s.pc ≠ 0x47#8 ∨ t.status = .faulted → t.out = s.out)

/-- 10_state.md R21, its writes column: the registers a step may change, by opcode byte and operand_a. -/
def Obligations.RegistersChangeOnlyAsTheTableSays : Prop :=
  ∀ (s t : State) (q : Fin 8), step s = .next t → t.readReg q ≠ s.readReg q →
    (s.readMem s.pc ∈ [0x82#8, 0xA0#8, 0xA2#8, 0x46#8] ∧ s.readMem (s.pc + 1#8) = regByte q) ∨
    (s.readMem s.pc ∈ [0x45#8, 0x46#8, 0x50#8, 0x11#8] ∧ q = 7)

/-- 20_memory.md R57, its writes column: memory changes only in a PUSH or CALL, and there only in the one byte at
SP - 1. -/
def Obligations.MemoryChangesOnlyByPushAndCall : Prop :=
  ∀ (s t : State) (addr : Byte), step s = .next t → t.readMem addr ≠ s.readMem addr →
    s.readMem s.pc ∈ [0x45#8, 0x50#8] ∧ addr = s.readReg 7 - 1#8

/-- 20_memory.md R57, its reads column, with the three fetch reads: a step reads memory at pc, pc + 1, pc + 2 and, for POP
and RET, at SP; two memories that agree there give the same registers, pc, flag, status, fault record and output. -/
def Obligations.StepReadsOnlyFetchAndStackBytes : Prop :=
  ∀ (s t : State) (other : Memory), step s = .next t →
    (∀ k, k < 3 → { s with mem := other }.readMem (addrPlus s.pc k) = s.readMem (addrPlus s.pc k)) →
    (s.readMem s.pc ∈ [0x46#8, 0x11#8] → { s with mem := other }.readMem s.sp = s.readMem s.sp) →
    ∃ u, step { s with mem := other } = .next u ∧ u = { t with mem := u.mem }

/-- 10_state.md R20: every register reads back the last value written to it, and writing one leaves the other seven and the
rest of the state alone. -/
def Obligations.RegistersReadBackTheLastWrite : Prop :=
  ∀ (s : State) (r : Fin 8) (v : Byte),
    (s.writeReg r v).readReg r = v ∧ KeepsRegsBut [r] s (s.writeReg r v) ∧
    s.writeReg r v = { s with x := (s.writeReg r v).x }

/-- 20_memory.md R52: a write sets its own cell to the byte and changes no other cell and no other state (in a memory of the
canonical form, which every reachable memory has). -/
def Obligations.MemoryReadsTheLatestWrite : Prop :=
  ∀ (s : State) (addr v : Byte), s.mem.wf = true →
    (s.writeMem addr v).readMem addr = v ∧ KeepsMemBut addr s (s.writeMem addr v) ∧
    s.writeMem addr v = { s with mem := (s.writeMem addr v).mem }

/-- The model's memory representation (log entry 10): a write keeps the canonical form, and canonical memories that read
alike at all 256 addresses are the same list, so equal memories are equal data. -/
def Obligations.CanonicalMemoriesThatReadAlikeAreEqual : Prop :=
  (∀ (m : Memory) (addr v : Byte), m.wf = true → (m.write addr.toNat v).wf = true) ∧
  ∀ s t : State, s.mem.wf = true → t.mem.wf = true → KeepsMem s t → s.mem = t.mem

/-- 20_memory.md R62: the byte a PUSH or CALL stores is what the next fetch reads there, and the step that stores it still
runs the bytes it fetched, wherever the store lands. -/
def Obligations.StoresAreSeenByTheNextFetch : Prop :=
  ∀ (s : State) (r : Fin 8) (i : Instr), s.mem.wf = true → i = .push (regByte r) ∨ i = .call (regByte r) → Placed i s →
    ∃ t, step s = .next t ∧ exec i s = .next t ∧
      ∀ k, addrPlus t.pc k = s.readReg 7 - 1#8 →
        t.readMem (addrPlus t.pc k) =
          (if i = .call (regByte r) then addrPlus s.pc 2 else if r = 7 then s.readReg 7 - 1#8 else s.readReg r)

/-- 20_memory.md R53: the addresses a step forms are reduced modulo 256: its two operand fetches, the sequential next pc,
and the stack pointer's decrement and increment. -/
def Obligations.AddressesWrapModulo256 : Prop :=
  ∀ (s : State) (n : Nat),
    (fetch s).a = s.mem.read ((s.pc.toNat + 1) % 256) ∧ (fetch s).b = s.mem.read ((s.pc.toNat + 2) % 256) ∧
    (s.advance n).pc.toNat = (s.pc.toNat + n) % 256 ∧
    (s.decSp.readReg 7).toNat = ((s.readReg 7).toNat + 255) % 256 ∧
    (s.incSp.readReg 7).toNat = ((s.readReg 7).toNat + 1) % 256

/-! ### Reset, boot and the host's ports -/

/-- 10_state.md R41: asserting `rst`, at any status, gives the reset values with memory cleared; no step is taken while it
is asserted; on release the block is Running and fetches at 0x00. That a block which takes no step answers its unchanged
state is the model's choice (log entry 2), and the clearing at the moment of assertion is its reading (log entry 3). -/
def Obligations.ResetAtAnyStatusGivesTheResetValues : Prop :=
  ∀ s : State, s.rst = false →
    let t := s.driveRst true
    (∀ r : Fin 8, r ≠ 7 → t.readReg r = 0x00#8) ∧ t.readReg 7 = 0xF4#8 ∧ t.pc = 0x00#8 ∧ t.cmpFlag = false ∧
    (∀ addr : Byte, t.readMem addr = 0x00#8) ∧ t.fault = none ∧ t.out = [] ∧ t.rst = true ∧
    (∀ k, Sys2Proof.core.run k t = .next t) ∧
    (t.driveRst false).status = .running ∧ (t.driveRst false).takesSteps = true ∧ (t.driveRst false).pc = 0x00#8 ∧
    t.driveRst false = State.reset

/-- 10_state.md R33 with 70_reset_and_hazards.md R184: booting an image of at most 256 bytes gives every piece of state its
reset value, memory the image at 0..n-1 and 0x00 past it, and the first fetch the image's first byte. That `bootImage` answers
none for a longer image, which R185 leaves the host's error, is the model's choice (log entry 8), and the clearing at the
moment of assertion is its reading (log entry 3). -/
def Obligations.BootLeavesResetValuesAndTheImage : Prop :=
  ∀ (s : State) (image : List Byte), s.rst = false →
    (image.length ≤ 256 → ∃ t, s.bootImage image = some t ∧
      (∀ r : Fin 8, r ≠ 7 → t.readReg r = 0x00#8) ∧ t.readReg 7 = 0xF4#8 ∧ t.pc = 0x00#8 ∧ t.cmpFlag = false ∧
      (∀ addr : Byte, t.readMem addr = image.getD addr.toNat 0x00#8) ∧
      t.status = .running ∧ t.fault = none ∧ t.out = [] ∧ t.rst = false ∧
      (fetch t).ir = image.getD 0 0x00#8) ∧
    (256 < image.length → s.bootImage image = none)

/-- 10_state.md R42: a load write stores its byte at its address while `rst` is asserted and is ignored otherwise, and an
image of n bytes occupies mem[0..n-1]. -/
def Obligations.LoadPortWritesOnlyUnderReset : Prop :=
  (∀ (s : State) (addr data : Byte), s.rst = false → s.hostWrite addr data = s) ∧
  (∀ (s : State) (addr data : Byte), s.rst = true → s.mem.wf = true →
    (s.hostWrite addr data).readMem addr = data ∧ KeepsMemBut addr s (s.hostWrite addr data) ∧
    s.hostWrite addr data = { s with mem := (s.hostWrite addr data).mem }) ∧
  (∀ (s : State) (image : List Byte) (addr : Byte), s.rst = true → s.mem.wf = true → image.length ≤ 256 →
    (s.loadImage 0x00#8 image).readMem addr =
      if addr.toNat < image.length then image.getD addr.toNat 0x00#8 else s.readMem addr)

/-- What the ports show: the status codes of 10_state.md R40 and R44, never 3; the fault record of R45 when Faulted, in the
codes of 60_exceptions.md R160. That the fault ports, unspecified at any other status (R45), are a relation that allows
every value then is the model's choice (log entry 5). -/
def Obligations.PortsShowStatusAndFaultRecord : Prop :=
  (∀ s : State, (statusPort s = 0#2 ↔ s.status = .running) ∧ (statusPort s = 1#2 ↔ s.status = .halted) ∧
    (statusPort s = 2#2 ↔ s.status = .faulted) ∧ statusPort s ≠ 3#2) ∧
  (∀ (s : State) (f : FaultRecord) (kind : BitVec 3) (byte pc : Byte), s.status = .faulted → s.fault = some f →
    (faultPortsMayShow s kind byte pc = true ↔ kind = recordCode (some f) ∧ byte = f.byte ∧ pc = f.pc)) ∧
  (∀ (s : State) (kind : BitVec 3) (byte pc : Byte), s.status ≠ .faulted → faultPortsMayShow s kind byte pc = true) ∧
  recordCode none = 0#3 ∧ faultCode .invalidInstruction = 1#3 ∧ faultCode .invalidRegister = 2#3 ∧
  faultCode .unsupportedOperation = 3#3 ∧ faultCode .outOfBoundsAddress = 4#3

/-! ### Invariants and runs -/

/-- The machine right after reset meets the invariant. -/
def Obligations.ResetMeetsTheInvariant : Prop := Inv State.reset

/-- The invariant, from every state that meets it and not only from reset: canonical memory; a fault record exactly when
Faulted, at pc, with one of the two reachable causes still shown by memory; a halted block at its HLT; nothing but memory
off its reset value while `rst` is asserted. That `status` already holds Running then is the model's reading (log entry 3),
and so is that a block which takes no step answers its unchanged state (the model's choice, log entry 2). -/
def Obligations.EveryStepKeepsTheInvariant : Prop :=
  ∀ s t : State, Inv s → step s = .next t → Inv t

/-- Whatever the block and its host do, in any order (60_exceptions.md R169), some state is reached and it meets the
invariant. That a Halted, Faulted or held block answers a next state is the model's choice (log entry 2). That memory is
cleared only when `rst` becomes asserted, and that `status` holds Running while it is, are the model's reading (log
entry 3): 10_state.md R33 and R41 say Running once reset is released. -/
def Obligations.EveryMoveSequenceKeepsTheInvariant : Prop :=
  ∀ (moves : List Move) (s : State), Inv s → ∃ t, runMoves moves s = .next t ∧ Inv t

/-- 10_state.md R27 with 40_execution_loop.md R103: a step of a Running block leads to Faulted exactly when the bytes at pc
are no instruction: when the decoder accepts none, or, the same, when no well-formed instruction's own bytes stand there. -/
def Obligations.RunningStepFaultsExactlyWhenNoInstructionIsFetched : Prop :=
  ∀ s : State, s.status = .running → s.rst = false → ∃ t, step s = .next t ∧
    (t.status ≠ .faulted ↔ ∃ i : Instr,
      decode (s.readMem s.pc) (s.readMem (addrPlus s.pc 1)) (s.readMem (addrPlus s.pc 2)) = .ok i) ∧
    (t.status ≠ .faulted ↔ ∃ i : Instr, i.wf = true ∧ Placed i s)

/-- What a safe run of a Running block is, step by step (10_state.md R27, 40_execution_loop.md R103): a run of `k + 1` steps
never meets Faulted exactly when a well-formed instruction stands at pc and the run of `k` steps from the state its
execution gives never does. -/
def Obligations.SafeRunsExecuteWellFormedInstructions : Prop :=
  ∀ (k : Nat) (s : State), s.status = .running → s.rst = false →
    (safeRun (k + 1) s = true ↔
      ∃ i t, i.wf = true ∧ Placed i s ∧ exec i s = .next t ∧ safeRun k t = true)
end

