-- ==== Sys2Proof/Laws/Decode.lean ====
section
/-! SUPPORT. The opcode table as a function and back, and what the decoder's answers mean. -/

namespace Sys2Proof

/-- No two rows of the opcode table overlap: every row matches all 8 bits of its own value. -/
theorem Opcode.rows_disjoint : Opcode.all.Pairwise fun o p => o.byte ≠ p.byte := by decide

theorem Opcode.mem_all (o : Opcode) : o ∈ Opcode.all := by cases o <;> decide

@[simp] theorem Opcode.ofByte?_byte (o : Opcode) : Opcode.ofByte? o.byte = some o := by cases o <;> decide

/-- Matching IR finds the row with exactly that byte. -/
theorem Opcode.ofByte?_eq_some {ir : Byte} {o : Opcode} : Opcode.ofByte? ir = some o ↔ o.byte = ir := by
  constructor
  · intro h
    simpa using List.find?_some h
  · rintro rfl
    exact Opcode.ofByte?_byte o

/-- An opcode byte is illegal exactly when no row has it. -/
theorem Opcode.ofByte?_eq_none {ir : Byte} : Opcode.ofByte? ir = none ↔ ∀ o : Opcode, o.byte ≠ ir := by
  constructor
  · intro h o ho
    rw [Opcode.ofByte?_eq_some.mpr ho] at h
    cases h
  · intro h
    cases hir : Opcode.ofByte? ir with
    | none => rfl
    | some o => exact absurd (Opcode.ofByte?_eq_some.mp hir) (h o)

/-- The decoder's answers, once: which check failed, or the instruction the operands make. -/
theorem decode_cases (ir a b : Byte) :
    (Opcode.ofByte? ir = none ∧ decode ir a b = .illegalOpcode ir) ∨
    (∃ o : Opcode, o.byte = ir ∧
      ((o.control.ra = true ∧ isRegister a = false ∧ decode ir a b = .badRegister a) ∨
       (¬(o.control.ra = true ∧ isRegister a = false) ∧ o.control.rb = true ∧ isRegister b = false ∧
          decode ir a b = .badRegister b) ∨
       (¬(o.control.ra = true ∧ isRegister a = false) ∧ ¬(o.control.rb = true ∧ isRegister b = false) ∧
          decode ir a b = .ok (o.withOperands a b)))) := by
  cases hir : Opcode.ofByte? ir with
  | none => exact .inl ⟨rfl, by simp [decode, hir]⟩
  | some o =>
    refine .inr ⟨o, Opcode.ofByte?_eq_some.mp hir, ?_⟩
    by_cases ha : o.control.ra = true ∧ isRegister a = false
    · exact .inl ⟨ha.1, ha.2, by simp [decode, hir, ha.1, ha.2]⟩
    · by_cases hb : o.control.rb = true ∧ isRegister b = false
      · refine .inr (.inl ⟨ha, hb.1, hb.2, ?_⟩)
        simp only [decode, hir]
        rw [if_neg (by simpa using ha), if_pos (by simpa using hb)]
      · refine .inr (.inr ⟨ha, hb, ?_⟩)
        simp only [decode, hir]
        rw [if_neg (by simpa using ha), if_neg (by simpa using hb)]

@[simp] theorem Opcode.withOperands_opcode (o : Opcode) (a b : Byte) : (o.withOperands a b).opcode = o := by
  cases o <;> rfl

/-- Whether the register checks pass is well-formedness of the instruction they make. -/
theorem Opcode.withOperands_wf (o : Opcode) (a b : Byte) :
    (o.withOperands a b).wf = ((!o.control.ra || isRegister a) && (!o.control.rb || isRegister b)) := by
  cases o <;> simp [Opcode.withOperands, Instr.wf, Instr.registerOperands, Opcode.control]

end Sys2Proof
end

