-- ==== Sys2Proof/Laws/State.lean ====
section
/-! SUPPORT. One lemma per field of State and update, and what reading a register or a byte of memory gives after each
update. -/

namespace Sys2Proof.Machine

/-! ### writeMem -/

@[simp] theorem State.writeMem_x (s : State) (addr v : Byte) : (s.writeMem addr v).x = s.x := rfl
@[simp] theorem State.writeMem_pc (s : State) (addr v : Byte) : (s.writeMem addr v).pc = s.pc := rfl
@[simp] theorem State.writeMem_cmpFlag (s : State) (addr v : Byte) : (s.writeMem addr v).cmpFlag = s.cmpFlag := rfl
@[simp] theorem State.writeMem_mem (s : State) (addr v : Byte) : (s.writeMem addr v).mem = s.mem.write addr.toNat v := rfl
@[simp] theorem State.writeMem_status (s : State) (addr v : Byte) : (s.writeMem addr v).status = s.status := rfl
@[simp] theorem State.writeMem_fault (s : State) (addr v : Byte) : (s.writeMem addr v).fault = s.fault := rfl
@[simp] theorem State.writeMem_out (s : State) (addr v : Byte) : (s.writeMem addr v).out = s.out := rfl
@[simp] theorem State.writeMem_rst (s : State) (addr v : Byte) : (s.writeMem addr v).rst = s.rst := rfl
@[simp] theorem State.readReg_writeMem (s : State) (addr v : Byte) (q : Fin 8) : (s.writeMem addr v).readReg q = s.readReg q := rfl
@[simp] theorem State.sp_writeMem (s : State) (addr v : Byte) : (s.writeMem addr v).sp = s.sp := rfl

/-! ### writeReg -/

@[simp] theorem State.writeReg_x (s : State) (r : Fin 8) (v : Byte) : (s.writeReg r v).x = s.x.set r v := rfl
@[simp] theorem State.writeReg_pc (s : State) (r : Fin 8) (v : Byte) : (s.writeReg r v).pc = s.pc := rfl
@[simp] theorem State.writeReg_cmpFlag (s : State) (r : Fin 8) (v : Byte) : (s.writeReg r v).cmpFlag = s.cmpFlag := rfl
@[simp] theorem State.writeReg_mem (s : State) (r : Fin 8) (v : Byte) : (s.writeReg r v).mem = s.mem := rfl
@[simp] theorem State.writeReg_status (s : State) (r : Fin 8) (v : Byte) : (s.writeReg r v).status = s.status := rfl
@[simp] theorem State.writeReg_fault (s : State) (r : Fin 8) (v : Byte) : (s.writeReg r v).fault = s.fault := rfl
@[simp] theorem State.writeReg_out (s : State) (r : Fin 8) (v : Byte) : (s.writeReg r v).out = s.out := rfl
@[simp] theorem State.writeReg_rst (s : State) (r : Fin 8) (v : Byte) : (s.writeReg r v).rst = s.rst := rfl
@[simp] theorem State.readMem_writeReg (s : State) (r : Fin 8) (v : Byte) (q : Byte) : (s.writeReg r v).readMem q = s.readMem q := rfl

/-! ### decSp -/

@[simp] theorem State.decSp_x (s : State) : (s.decSp).x = s.x.set spReg (s.sp - 1#8) := rfl
@[simp] theorem State.decSp_pc (s : State) : (s.decSp).pc = s.pc := rfl
@[simp] theorem State.decSp_cmpFlag (s : State) : (s.decSp).cmpFlag = s.cmpFlag := rfl
@[simp] theorem State.decSp_mem (s : State) : (s.decSp).mem = s.mem := rfl
@[simp] theorem State.decSp_status (s : State) : (s.decSp).status = s.status := rfl
@[simp] theorem State.decSp_fault (s : State) : (s.decSp).fault = s.fault := rfl
@[simp] theorem State.decSp_out (s : State) : (s.decSp).out = s.out := rfl
@[simp] theorem State.decSp_rst (s : State) : (s.decSp).rst = s.rst := rfl
@[simp] theorem State.readMem_decSp (s : State) (q : Byte) : (s.decSp).readMem q = s.readMem q := rfl

/-! ### incSp -/

@[simp] theorem State.incSp_x (s : State) : (s.incSp).x = s.x.set spReg (s.sp + 1#8) := rfl
@[simp] theorem State.incSp_pc (s : State) : (s.incSp).pc = s.pc := rfl
@[simp] theorem State.incSp_cmpFlag (s : State) : (s.incSp).cmpFlag = s.cmpFlag := rfl
@[simp] theorem State.incSp_mem (s : State) : (s.incSp).mem = s.mem := rfl
@[simp] theorem State.incSp_status (s : State) : (s.incSp).status = s.status := rfl
@[simp] theorem State.incSp_fault (s : State) : (s.incSp).fault = s.fault := rfl
@[simp] theorem State.incSp_out (s : State) : (s.incSp).out = s.out := rfl
@[simp] theorem State.incSp_rst (s : State) : (s.incSp).rst = s.rst := rfl
@[simp] theorem State.readMem_incSp (s : State) (q : Byte) : (s.incSp).readMem q = s.readMem q := rfl

/-! ### pushByte -/

@[simp] theorem State.pushByte_x (s : State) (f : State → Byte) : (s.pushByte f).x = s.decSp.x := rfl
@[simp] theorem State.pushByte_pc (s : State) (f : State → Byte) : (s.pushByte f).pc = s.pc := rfl
@[simp] theorem State.pushByte_cmpFlag (s : State) (f : State → Byte) : (s.pushByte f).cmpFlag = s.cmpFlag := rfl
@[simp] theorem State.pushByte_mem (s : State) (f : State → Byte) : (s.pushByte f).mem = s.mem.write s.decSp.sp.toNat (f s.decSp) := rfl
@[simp] theorem State.pushByte_status (s : State) (f : State → Byte) : (s.pushByte f).status = s.status := rfl
@[simp] theorem State.pushByte_fault (s : State) (f : State → Byte) : (s.pushByte f).fault = s.fault := rfl
@[simp] theorem State.pushByte_out (s : State) (f : State → Byte) : (s.pushByte f).out = s.out := rfl
@[simp] theorem State.pushByte_rst (s : State) (f : State → Byte) : (s.pushByte f).rst = s.rst := rfl

/-! ### advance -/

@[simp] theorem State.advance_x (s : State) (n : Nat) : (s.advance n).x = s.x := rfl
@[simp] theorem State.advance_pc (s : State) (n : Nat) : (s.advance n).pc = addrPlus s.pc n := rfl
@[simp] theorem State.advance_cmpFlag (s : State) (n : Nat) : (s.advance n).cmpFlag = s.cmpFlag := rfl
@[simp] theorem State.advance_mem (s : State) (n : Nat) : (s.advance n).mem = s.mem := rfl
@[simp] theorem State.advance_status (s : State) (n : Nat) : (s.advance n).status = s.status := rfl
@[simp] theorem State.advance_fault (s : State) (n : Nat) : (s.advance n).fault = s.fault := rfl
@[simp] theorem State.advance_out (s : State) (n : Nat) : (s.advance n).out = s.out := rfl
@[simp] theorem State.advance_rst (s : State) (n : Nat) : (s.advance n).rst = s.rst := rfl
@[simp] theorem State.readMem_advance (s : State) (n : Nat) (q : Byte) : (s.advance n).readMem q = s.readMem q := rfl
@[simp] theorem State.readReg_advance (s : State) (n : Nat) (q : Fin 8) : (s.advance n).readReg q = s.readReg q := rfl
@[simp] theorem State.sp_advance (s : State) (n : Nat) : (s.advance n).sp = s.sp := rfl

/-! ### jump -/

@[simp] theorem State.jump_x (s : State) (target : Byte) : (s.jump target).x = s.x := rfl
@[simp] theorem State.jump_pc (s : State) (target : Byte) : (s.jump target).pc = target := rfl
@[simp] theorem State.jump_cmpFlag (s : State) (target : Byte) : (s.jump target).cmpFlag = s.cmpFlag := rfl
@[simp] theorem State.jump_mem (s : State) (target : Byte) : (s.jump target).mem = s.mem := rfl
@[simp] theorem State.jump_status (s : State) (target : Byte) : (s.jump target).status = s.status := rfl
@[simp] theorem State.jump_fault (s : State) (target : Byte) : (s.jump target).fault = s.fault := rfl
@[simp] theorem State.jump_out (s : State) (target : Byte) : (s.jump target).out = s.out := rfl
@[simp] theorem State.jump_rst (s : State) (target : Byte) : (s.jump target).rst = s.rst := rfl
@[simp] theorem State.readMem_jump (s : State) (target : Byte) (q : Byte) : (s.jump target).readMem q = s.readMem q := rfl
@[simp] theorem State.readReg_jump (s : State) (target : Byte) (q : Fin 8) : (s.jump target).readReg q = s.readReg q := rfl
@[simp] theorem State.sp_jump (s : State) (target : Byte) : (s.jump target).sp = s.sp := rfl

/-! ### emit -/

@[simp] theorem State.emit_x (s : State) (v : Byte) : (s.emit v).x = s.x := rfl
@[simp] theorem State.emit_pc (s : State) (v : Byte) : (s.emit v).pc = s.pc := rfl
@[simp] theorem State.emit_cmpFlag (s : State) (v : Byte) : (s.emit v).cmpFlag = s.cmpFlag := rfl
@[simp] theorem State.emit_mem (s : State) (v : Byte) : (s.emit v).mem = s.mem := rfl
@[simp] theorem State.emit_status (s : State) (v : Byte) : (s.emit v).status = s.status := rfl
@[simp] theorem State.emit_fault (s : State) (v : Byte) : (s.emit v).fault = s.fault := rfl
@[simp] theorem State.emit_out (s : State) (v : Byte) : (s.emit v).out = s.out ++ [v] := rfl
@[simp] theorem State.emit_rst (s : State) (v : Byte) : (s.emit v).rst = s.rst := rfl
@[simp] theorem State.readMem_emit (s : State) (v : Byte) (q : Byte) : (s.emit v).readMem q = s.readMem q := rfl
@[simp] theorem State.readReg_emit (s : State) (v : Byte) (q : Fin 8) : (s.emit v).readReg q = s.readReg q := rfl
@[simp] theorem State.sp_emit (s : State) (v : Byte) : (s.emit v).sp = s.sp := rfl

/-! ### halt -/

@[simp] theorem State.halt_x (s : State) : (s.halt).x = s.x := rfl
@[simp] theorem State.halt_pc (s : State) : (s.halt).pc = s.pc := rfl
@[simp] theorem State.halt_cmpFlag (s : State) : (s.halt).cmpFlag = s.cmpFlag := rfl
@[simp] theorem State.halt_mem (s : State) : (s.halt).mem = s.mem := rfl
@[simp] theorem State.halt_status (s : State) : (s.halt).status = .halted := rfl
@[simp] theorem State.halt_fault (s : State) : (s.halt).fault = s.fault := rfl
@[simp] theorem State.halt_out (s : State) : (s.halt).out = s.out := rfl
@[simp] theorem State.halt_rst (s : State) : (s.halt).rst = s.rst := rfl
@[simp] theorem State.readMem_halt (s : State) (q : Byte) : (s.halt).readMem q = s.readMem q := rfl
@[simp] theorem State.readReg_halt (s : State) (q : Fin 8) : (s.halt).readReg q = s.readReg q := rfl
@[simp] theorem State.sp_halt (s : State) : (s.halt).sp = s.sp := rfl

/-! ### takeFault -/

@[simp] theorem State.takeFault_x (s : State) (k : FaultKind) (b : Byte) : (s.takeFault k b).x = s.x := rfl
@[simp] theorem State.takeFault_pc (s : State) (k : FaultKind) (b : Byte) : (s.takeFault k b).pc = s.pc := rfl
@[simp] theorem State.takeFault_cmpFlag (s : State) (k : FaultKind) (b : Byte) : (s.takeFault k b).cmpFlag = s.cmpFlag := rfl
@[simp] theorem State.takeFault_mem (s : State) (k : FaultKind) (b : Byte) : (s.takeFault k b).mem = s.mem := rfl
@[simp] theorem State.takeFault_status (s : State) (k : FaultKind) (b : Byte) : (s.takeFault k b).status = .faulted := rfl
@[simp] theorem State.takeFault_fault (s : State) (k : FaultKind) (b : Byte) : (s.takeFault k b).fault = some { kind := k, byte := b, pc := s.pc } := rfl
@[simp] theorem State.takeFault_out (s : State) (k : FaultKind) (b : Byte) : (s.takeFault k b).out = s.out := rfl
@[simp] theorem State.takeFault_rst (s : State) (k : FaultKind) (b : Byte) : (s.takeFault k b).rst = s.rst := rfl
@[simp] theorem State.readMem_takeFault (s : State) (k : FaultKind) (b : Byte) (q : Byte) : (s.takeFault k b).readMem q = s.readMem q := rfl
@[simp] theorem State.readReg_takeFault (s : State) (k : FaultKind) (b : Byte) (q : Fin 8) : (s.takeFault k b).readReg q = s.readReg q := rfl
@[simp] theorem State.sp_takeFault (s : State) (k : FaultKind) (b : Byte) : (s.takeFault k b).sp = s.sp := rfl

/-! ### setCmpFlag -/

@[simp] theorem State.setCmpFlag_x (s : State) (b : Bool) : (s.setCmpFlag b).x = s.x := rfl
@[simp] theorem State.setCmpFlag_pc (s : State) (b : Bool) : (s.setCmpFlag b).pc = s.pc := rfl
@[simp] theorem State.setCmpFlag_cmpFlag (s : State) (b : Bool) : (s.setCmpFlag b).cmpFlag = b := rfl
@[simp] theorem State.setCmpFlag_mem (s : State) (b : Bool) : (s.setCmpFlag b).mem = s.mem := rfl
@[simp] theorem State.setCmpFlag_status (s : State) (b : Bool) : (s.setCmpFlag b).status = s.status := rfl
@[simp] theorem State.setCmpFlag_fault (s : State) (b : Bool) : (s.setCmpFlag b).fault = s.fault := rfl
@[simp] theorem State.setCmpFlag_out (s : State) (b : Bool) : (s.setCmpFlag b).out = s.out := rfl
@[simp] theorem State.setCmpFlag_rst (s : State) (b : Bool) : (s.setCmpFlag b).rst = s.rst := rfl
@[simp] theorem State.readMem_setCmpFlag (s : State) (b : Bool) (q : Byte) : (s.setCmpFlag b).readMem q = s.readMem q := rfl
@[simp] theorem State.readReg_setCmpFlag (s : State) (b : Bool) (q : Fin 8) : (s.setCmpFlag b).readReg q = s.readReg q := rfl
@[simp] theorem State.sp_setCmpFlag (s : State) (b : Bool) : (s.setCmpFlag b).sp = s.sp := rfl

/-! ### enabled -/

@[simp] theorem State.enabled_x (s : State) : (s.enabled).x = s.x := rfl
@[simp] theorem State.enabled_pc (s : State) : (s.enabled).pc = s.pc := rfl
@[simp] theorem State.enabled_cmpFlag (s : State) : (s.enabled).cmpFlag = s.cmpFlag := rfl
@[simp] theorem State.enabled_mem (s : State) : (s.enabled).mem = s.mem := rfl
@[simp] theorem State.enabled_status (s : State) : (s.enabled).status = .running := rfl
@[simp] theorem State.enabled_fault (s : State) : (s.enabled).fault = none := rfl
@[simp] theorem State.enabled_out (s : State) : (s.enabled).out = s.out := rfl
@[simp] theorem State.enabled_rst (s : State) : (s.enabled).rst = false := rfl
@[simp] theorem State.readMem_enabled (s : State) (q : Byte) : (s.enabled).readMem q = s.readMem q := rfl
@[simp] theorem State.readReg_enabled (s : State) (q : Fin 8) : (s.enabled).readReg q = s.readReg q := rfl
@[simp] theorem State.sp_enabled (s : State) : (s.enabled).sp = s.sp := rfl

/-! ### Reading registers after register updates -/

@[simp] theorem State.readReg_writeReg (s : State) (r q : Fin 8) (v : Byte) :
    (s.writeReg r v).readReg q = if r = q then v else s.readReg q := by
  simp [State.readReg, State.writeReg, Vector.getElem_set, Fin.ext_iff]

@[simp] theorem State.readReg_decSp (s : State) (q : Fin 8) :
    s.decSp.readReg q = if spReg = q then s.sp - 1#8 else s.readReg q := State.readReg_writeReg s spReg q _

@[simp] theorem State.readReg_incSp (s : State) (q : Fin 8) :
    s.incSp.readReg q = if spReg = q then s.sp + 1#8 else s.readReg q := State.readReg_writeReg s spReg q _

@[simp] theorem State.readReg_pushByte (s : State) (f : State → Byte) (q : Fin 8) :
    (s.pushByte f).readReg q = if spReg = q then s.sp - 1#8 else s.readReg q := State.readReg_decSp s q

@[simp] theorem State.sp_writeReg (s : State) (r : Fin 8) (v : Byte) :
    (s.writeReg r v).sp = if r = spReg then v else s.sp := State.readReg_writeReg s r spReg v

@[simp] theorem State.sp_decSp (s : State) : s.decSp.sp = s.sp - 1#8 := by simp [State.sp]

@[simp] theorem State.sp_incSp (s : State) : s.incSp.sp = s.sp + 1#8 := by simp [State.sp]

@[simp] theorem State.sp_pushByte (s : State) (f : State → Byte) : (s.pushByte f).sp = s.sp - 1#8 :=
  State.sp_decSp s

/-- Two states with the same register reads have the same register file. -/
theorem State.x_ext (s t : State) (h : ∀ r : Fin 8, s.readReg r = t.readReg r) : s.x = t.x := by
  ext i hi
  exact congrArg (fun b : Byte => b[_]) (h ⟨i, hi⟩)

/-! ### Conditional jumps -/

@[simp] theorem State.branchWhen_pc (s : State) (value : Bool) (target : Byte) :
    (s.branchWhen value target).pc = if s.cmpFlag = value then target else addrPlus s.pc 2 := by
  unfold State.branchWhen; split <;> rfl

/-- A conditional jump changes the pc and nothing else. -/
theorem State.branchWhen_eq_jump (s : State) (value : Bool) (target : Byte) :
    s.branchWhen value target = s.jump (s.branchWhen value target).pc := by
  unfold State.branchWhen; split <;> rfl

/-! ### Addresses -/

@[simp] theorem addrPlus_toNat (p : Byte) (n : Nat) : (addrPlus p n).toNat = (p.toNat + n) % 256 := by
  simp [addrPlus]

@[simp] theorem addrPlus_zero (p : Byte) : addrPlus p 0 = p := by
  simp [addrPlus]

theorem addrPlus_eq_add (p : Byte) (n : Nat) : addrPlus p n = p + BitVec.ofNat 8 n := by
  apply BitVec.eq_of_toNat_eq; simp

/-! ### Reset -/

/-- Right after reset every cell reads 0x00. -/
@[simp] theorem reset_readMem (addr : Byte) : State.reset.readMem addr = 0x00#8 := rfl

theorem reset_mem_wf : State.reset.mem.wf = true := rfl

end Sys2Proof.Machine
end

