-- ==== Sys2Proof/Laws/Memory.lean ====
section
/-! SUPPORT. Memory as a map: reads after writes, and the canonical form, which every memory operation keeps. -/

namespace Sys2Proof.Machine

/-- A cell that stands below the least address of a canonical list is not listed. -/
theorem Memory.read_of_lt {m : Memory} {least addr : Nat} (h : m.wfFrom least = true) (hlt : addr < least) :
    m.read addr = Config.unlistedByte := by
  induction m generalizing least with
  | nil => rfl
  | cons c rest ih =>
    obtain ⟨a, v⟩ := c
    simp only [Memory.wfFrom, Bool.and_eq_true, decide_eq_true_eq] at h
    have hne : a ≠ addr := by omega
    simpa [Memory.read, hne] using ih h.2 (by omega)

/-- The canonical form above an address is canonical above every lower one. -/
theorem Memory.wfFrom_mono {m : Memory} {least low : Nat} (h : m.wfFrom least = true) (hle : low ≤ least) :
    m.wfFrom low = true := by
  cases m with
  | nil => rfl
  | cons c rest =>
    simp only [Memory.wfFrom, Bool.and_eq_true, decide_eq_true_eq] at h ⊢
    exact ⟨⟨⟨by omega, h.1.1.2⟩, h.1.2⟩, h.2⟩

/-- A write leaves every other address alone, in any memory. -/
theorem Memory.read_write_other (m : Memory) {addr other : Nat} (v : Byte) (hne : other ≠ addr) :
    (m.write addr v).read other = m.read other := by
  induction m with
  | nil => by_cases hv : v = Config.unlistedByte <;> simp [Memory.write, Memory.read, hv, hne.symm]
  | cons c rest ih =>
    obtain ⟨a, w⟩ := c
    by_cases hlt : addr < a
    · by_cases hv : v = Config.unlistedByte <;> simp [Memory.write, Memory.read, hlt, hv, hne.symm]
    · by_cases heq : addr = a
      · subst heq
        by_cases hv : v = Config.unlistedByte <;> simp [Memory.write, Memory.read, hv, hne.symm]
      · simp [Memory.write, Memory.read, hlt, heq, ih]

/-- A read after a write to the same address gives the byte written, in a canonical memory. -/
theorem Memory.read_write_same {m : Memory} {least : Nat} (h : m.wfFrom least = true) (addr : Nat) (v : Byte) :
    (m.write addr v).read addr = v := by
  induction m generalizing least with
  | nil => by_cases hv : v = Config.unlistedByte <;> simp [Memory.write, Memory.read, hv]
  | cons c rest ih =>
    obtain ⟨a, w⟩ := c
    simp only [Memory.wfFrom, Bool.and_eq_true, decide_eq_true_eq] at h
    by_cases hlt : addr < a
    · have hne : a ≠ addr := by omega
      by_cases hv : v = Config.unlistedByte
      · simpa [Memory.write, Memory.read, hlt, hv, hne] using Memory.read_of_lt h.2 (by omega)
      · simp [Memory.write, Memory.read, hlt, hv]
    · by_cases heq : addr = a
      · subst heq
        by_cases hv : v = Config.unlistedByte
        · simpa [Memory.write, hv] using Memory.read_of_lt h.2 (by omega)
        · simp [Memory.write, Memory.read, hv]
      · have hne : a ≠ addr := fun h' => heq h'.symm
        simpa [Memory.write, Memory.read, hlt, heq, hne] using ih h.2

/-- A write inside the address space keeps the canonical form. -/
theorem Memory.wfFrom_write {m : Memory} {least addr : Nat} (h : m.wfFrom least = true) (hle : least ≤ addr)
    (hsize : addr < Config.memSize) (v : Byte) : (m.write addr v).wfFrom least = true := by
  induction m generalizing least with
  | nil => by_cases hv : v = Config.unlistedByte <;> simp [Memory.write, Memory.wfFrom, hv, hle, hsize]
  | cons c rest ih =>
    obtain ⟨a, w⟩ := c
    simp only [Memory.wfFrom, Bool.and_eq_true, decide_eq_true_eq, bne_iff_ne, ne_eq] at h
    obtain ⟨⟨⟨ha, hs⟩, hw⟩, hrest⟩ := h
    by_cases hlt : addr < a
    · by_cases hv : v = Config.unlistedByte
      · simp [Memory.write, Memory.wfFrom, hlt, hv, ha, hs, hw, hrest]
      · simp [Memory.write, Memory.wfFrom, hlt, hv, hle, hs, hw, hrest, hsize, Nat.succ_le_of_lt hlt]
    · by_cases heq : addr = a
      · subst heq
        by_cases hv : v = Config.unlistedByte
        · simpa [Memory.write, hv] using Memory.wfFrom_mono hrest (by omega)
        · simp [Memory.write, Memory.wfFrom, hv, ha, hs, hrest]
      · simpa [Memory.write, Memory.wfFrom, hlt, heq, ha, hs, hw] using ih hrest (by omega)

/-- A store to an address of the machine keeps the canonical form. -/
theorem Memory.wf_write {m : Memory} (h : m.wf = true) (addr v : Byte) : (m.write addr.toNat v).wf = true :=
  Memory.wfFrom_write h (Nat.zero_le _) addr.isLt v

theorem State.readMem_writeMem_same {s : State} (h : s.mem.wf = true) (addr v : Byte) :
    (s.writeMem addr v).readMem addr = v :=
  Memory.read_write_same h addr.toNat v

theorem State.readMem_writeMem_other (s : State) {addr other : Byte} (v : Byte) (hne : other ≠ addr) :
    (s.writeMem addr v).readMem other = s.readMem other :=
  Memory.read_write_other s.mem v fun h => hne (BitVec.eq_of_toNat_eq h)

/-- The byte a push stores, and where. -/
theorem State.readMem_pushByte_same {s : State} (h : s.mem.wf = true) (f : State → Byte) :
    (s.pushByte f).readMem s.decSp.sp = f s.decSp :=
  State.readMem_writeMem_same (s := s.decSp) h _ _

/-- A push leaves every other byte alone. -/
theorem State.readMem_pushByte_other (s : State) (f : State → Byte) {other : Byte} (hne : other ≠ s.decSp.sp) :
    (s.pushByte f).readMem other = s.readMem other :=
  State.readMem_writeMem_other s.decSp _ hne

theorem State.pushByte_wf {s : State} (h : s.mem.wf = true) (f : State → Byte) : (s.pushByte f).mem.wf = true :=
  Memory.wf_write h _ _

theorem State.hostWrite_wf {s : State} (h : s.mem.wf = true) (addr data : Byte) :
    (s.hostWrite addr data).mem.wf = true := by
  unfold State.hostWrite; split
  · exact Memory.wf_write h addr data
  · exact h

theorem State.loadImage_wf {s : State} (h : s.mem.wf = true) (addr : Byte) (image : List Byte) :
    (s.loadImage addr image).mem.wf = true := by
  induction image generalizing s addr with
  | nil => exact h
  | cons v rest ih => exact ih (State.hostWrite_wf h addr v) (addrPlus addr 1)

theorem placeWord_wf {s : State} (h : s.mem.wf = true) (nbits w : Nat) : (placeWord s nbits w).mem.wf = true :=
  Memory.wf_write (Memory.wf_write (Memory.wf_write h _ _) _ _) _ _

end Sys2Proof.Machine
end

