-- ==== Sys2Proof/Laws/Ops.lean ====
section
/-! SUPPORT. One lemma per shared operation that says everything it can do, and the inversion of the step. -/

namespace Sys2Proof.Machine

/-! ### Register operands -/

theorem regByte_toNat (r : Fin 8) : (regByte r).toNat = r.val := by
  simp only [regByte, BitVec.toNat_ofNat]; omega

@[simp] theorem regIndex?_regByte (r : Fin 8) : regIndex? (regByte r) = some r := by
  simp [regIndex?, regByte_toNat]

@[simp] theorem isRegister_regByte (r : Fin 8) : isRegister (regByte r) = true := by
  simp [isRegister, regByte_toNat]

theorem regIndex?_eq_none {b : Byte} (h : 8 ≤ b.toNat) : regIndex? b = none := by
  simp [regIndex?, Nat.not_lt.mpr h]

/-- Every operand byte names a register or is 8..255. -/
theorem operand_cases (b : Byte) : (∃ r : Fin 8, b = regByte r) ∨ 8 ≤ b.toNat := by
  by_cases h : b.toNat < 8
  · exact .inl ⟨⟨b.toNat, h⟩, BitVec.eq_of_toNat_eq (by rw [regByte_toNat])⟩
  · exact .inr (by omega)

theorem isRegister_eq_true {b : Byte} : isRegister b = true ↔ ∃ r : Fin 8, b = regByte r := by
  constructor
  · intro h
    rcases operand_cases b with hr | hb
    · exact hr
    · simp [isRegister] at h; omega
  · rintro ⟨r, rfl⟩; exact isRegister_regByte r

theorem isRegister_eq_false {b : Byte} : isRegister b = false ↔ 8 ≤ b.toNat := by
  simp [isRegister]

theorem withReg_regByte (r : Fin 8) (s : State) (body : Fin 8 → Result) : withReg (regByte r) s body = body r := by
  simp [withReg]

theorem withReg_bad {b : Byte} (h : 8 ≤ b.toNat) (s : State) (body : Fin 8 → Result) :
    withReg b s body = .next (s.takeFault .invalidRegister b) := by
  simp [withReg, regIndex?_eq_none h]

theorem withRegs_regByte (d r : Fin 8) (s : State) (body : Fin 8 → Fin 8 → Result) :
    withRegs (regByte d) (regByte r) s body = body d r := by
  simp [withRegs, withReg_regByte]

/-- Everything a register operand can do: name a register and go on, or take InvalidRegister. -/
theorem withReg_next {b : Byte} {s t : State} {body : Fin 8 → Result} (h : withReg b s body = .next t) :
    (∃ r : Fin 8, b = regByte r ∧ body r = .next t) ∨ (8 ≤ b.toNat ∧ t = s.takeFault .invalidRegister b) := by
  rcases operand_cases b with ⟨r, rfl⟩ | hb
  · exact .inl ⟨r, rfl, by rwa [withReg_regByte] at h⟩
  · rw [withReg_bad hb] at h
    exact .inr ⟨hb, by injection h with h; exact h.symm⟩

/-- Taking a fault changes the status and the record and nothing else (60_exceptions.md R165). -/
theorem takeFault_faultTaken (s : State) (kind : FaultKind) (byte : Byte) :
    FaultTaken kind byte s (s.takeFault kind byte) := ⟨rfl, rfl, rfl, rfl, rfl, rfl, rfl, rfl⟩

/-- `FaultTaken` describes one state only. -/
theorem faultTaken_iff {kind : FaultKind} {byte : Byte} {s t : State} :
    FaultTaken kind byte s t ↔ t = s.takeFault kind byte := by
  constructor
  · obtain ⟨x, pc, cf, mem, st, f, out, rst⟩ := t
    rintro ⟨h1, h2, h3, h4, h5, h6, h7, h8⟩
    simp only at h1 h2 h3 h4 h5 h6 h7 h8
    subst h1 h2 h3 h4 h5 h6 h7 h8
    rfl
  · rintro rfl; exact takeFault_faultTaken s kind byte

/-! ### The ALU -/

theorem aluApply_add (ir : Byte) (d r : Fin 8) (s : State) :
    aluApply .add ir d r s = .next ((s.writeReg d (aluAdd (s.readReg d) (s.readReg r))).advance 3) := rfl

theorem aluApply_mul (ir : Byte) (d r : Fin 8) (s : State) :
    aluApply .mul ir d r s = .next ((s.writeReg d (aluMul (s.readReg d) (s.readReg r))).advance 3) := rfl

theorem aluApply_other (code ir : Byte) (d r : Fin 8) (s : State) :
    aluApply (.other code) ir d r s = .next (s.takeFault .unsupportedOperation ir) := rfl

theorem aluAdd_toNat (u v : Byte) : (aluAdd u v).toNat = (u.toNat + v.toNat) % 256 := by simp [aluAdd]

theorem aluMul_toNat (u v : Byte) : (aluMul u v).toNat = (u.toNat * v.toNat) % 256 := by simp [aluMul]

/-! ### The step -/

theorem takesSteps_iff {s : State} : s.takesSteps = true ↔ s.status = .running ∧ s.rst = false := by
  simp [State.takesSteps, and_comm]

theorem step_running {s : State} (hs : s.status = .running) (hr : s.rst = false) : step s = runFetched (fetch s) s := by
  simp [step, takesSteps_iff.mpr ⟨hs, hr⟩]

theorem step_idle {s : State} (h : s.takesSteps = false) : step s = .next s := by simp [step, h]

/-- Everything a step can do: nothing, run the decoded instruction, or take the first failing check's fault. -/
theorem step_cases {s t : State} (h : step s = .next t) :
    (s.takesSteps = false ∧ t = s) ∨
    (s.takesSteps = true ∧
      ((∃ i, decode (fetch s).ir (fetch s).a (fetch s).b = .ok i ∧ exec i s = .next t) ∨
       (∃ ir, decode (fetch s).ir (fetch s).a (fetch s).b = .illegalOpcode ir ∧
          t = s.takeFault .invalidInstruction ir) ∨
       (∃ b, decode (fetch s).ir (fetch s).a (fetch s).b = .badRegister b ∧
          t = s.takeFault .invalidRegister b))) := by
  cases hs : s.takesSteps with
  | false =>
    rw [step_idle hs] at h
    exact .inl ⟨rfl, by injection h with h; exact h.symm⟩
  | true =>
    refine .inr ⟨rfl, ?_⟩
    simp only [step, hs, if_true, runFetched] at h
    cases hd : decode (fetch s).ir (fetch s).a (fetch s).b with
    | ok i => exact .inl ⟨i, rfl, by simpa [hd] using h⟩
    | illegalOpcode ir =>
      rw [hd] at h
      exact .inr (.inl ⟨ir, rfl, by injection h with h; exact h.symm⟩)
    | badRegister b =>
      rw [hd] at h
      exact .inr (.inr ⟨b, rfl, by injection h with h; exact h.symm⟩)

end Sys2Proof.Machine
end

