-- ==== Sys2Proof/Laws/Meanings.lean ====
section
/-! SUPPORT. What `exec` answers for each instruction over register operands, and for an operand byte that names no
register: the equations later proofs rewrite with instead of unfolding the meanings. -/

namespace Sys2Proof.Machine

theorem exec_hlt (s : State) : exec .hlt s = .next s.halt := rfl

theorem exec_ldi (d : Fin 8) (imm : Byte) (s : State) :
    exec (.ldi (regByte d) imm) s = .next ((s.writeReg d imm).advance 3) := withReg_regByte d s _

theorem exec_prn (r : Fin 8) (s : State) :
    exec (.prn (regByte r)) s = .next ((s.emit (s.readReg r)).advance 2) := withReg_regByte r s _

theorem exec_mul (d r : Fin 8) (s : State) :
    exec (.mul (regByte d) (regByte r)) s =
      .next ((s.writeReg d (aluMul (s.readReg d) (s.readReg r))).advance 3) := withRegs_regByte d r s _

theorem exec_add (d r : Fin 8) (s : State) :
    exec (.add (regByte d) (regByte r)) s =
      .next ((s.writeReg d (aluAdd (s.readReg d) (s.readReg r))).advance 3) := withRegs_regByte d r s _

theorem exec_push (r : Fin 8) (s : State) :
    exec (.push (regByte r)) s = .next ((s.pushByte fun q => q.readReg r).advance 2) := withReg_regByte r s _

theorem exec_pop (d : Fin 8) (s : State) :
    exec (.pop (regByte d)) s = .next ((s.writeReg d (s.readMem s.sp)).incSp.advance 2) := withReg_regByte d s _

theorem exec_call (r : Fin 8) (s : State) :
    exec (.call (regByte r)) s =
      .next ((s.pushByte fun q => addrPlus q.pc 2).jump ((s.pushByte fun q => addrPlus q.pc 2).readReg r)) :=
  withReg_regByte r s _

theorem exec_ret (s : State) : exec .ret s = .next (s.incSp.jump (s.readMem s.sp)) := rfl

theorem exec_cmp (d r : Fin 8) (s : State) :
    exec (.cmp (regByte d) (regByte r)) s =
      .next ((s.setCmpFlag (equalFlag (s.readReg d) (s.readReg r))).advance 3) := withRegs_regByte d r s _

theorem exec_jmp (r : Fin 8) (s : State) : exec (.jmp (regByte r)) s = .next (s.jump (s.readReg r)) :=
  withReg_regByte r s _

theorem exec_jeq (r : Fin 8) (s : State) :
    exec (.jeq (regByte r)) s = .next (s.branchWhen true (s.readReg r)) := withReg_regByte r s _

theorem exec_jne (r : Fin 8) (s : State) :
    exec (.jne (regByte r)) s = .next (s.branchWhen false (s.readReg r)) := withReg_regByte r s _

/-- The first register operand that names no register, in checking order. -/
def firstBadOperand (i : Instr) : Option Byte := i.registerOperands.find? fun b => !isRegister b

/-- An instruction has no bad operand exactly when it is well formed. -/
theorem firstBadOperand_eq_none {i : Instr} : firstBadOperand i = none ↔ i.wf = true := by
  simp [firstBadOperand, Instr.wf, List.find?_eq_none, List.all_eq_true]

theorem withReg_not_register {b : Byte} (h : isRegister b = false) (s : State) (body : Fin 8 → Result) :
    withReg b s body = .next (s.takeFault .invalidRegister b) := withReg_bad (isRegister_eq_false.mp h) s body

theorem withReg_register {b : Byte} (h : isRegister b = true) (s : State) (body : Fin 8 → Result) :
    ∃ r : Fin 8, b = regByte r ∧ withReg b s body = body r := by
  obtain ⟨r, rfl⟩ := isRegister_eq_true.mp h
  exact ⟨r, rfl, withReg_regByte r s body⟩

/-- An ill-formed instruction takes InvalidRegister with its first bad operand (30_encoding.md R78,
60_exceptions.md R162, R167). -/
theorem exec_bad_operand {i : Instr} {b : Byte} (h : firstBadOperand i = some b) (s : State) :
    exec i s = .next (s.takeFault .invalidRegister b) := by
  have one : ∀ (c : Byte) (body : Fin 8 → Result), [c].find? (fun b => !isRegister b) = some b →
      withReg c s body = .next (s.takeFault .invalidRegister b) := by
    intro c body hc
    cases hr : isRegister c with
    | true => simp [hr] at hc
    | false =>
      simp [hr] at hc
      exact hc ▸ withReg_not_register hr s body
  have two : ∀ (c e : Byte) (body : Fin 8 → Fin 8 → Result), [c, e].find? (fun b => !isRegister b) = some b →
      withRegs c e s body = .next (s.takeFault .invalidRegister b) := by
    intro c e body hc
    cases hr : isRegister c with
    | true =>
      obtain ⟨r, rfl, hw⟩ := withReg_register hr s (fun d => withReg e s fun r => body d r)
      rw [withRegs, hw]
      exact one e _ (by simpa [hr] using hc)
    | false =>
      simp [hr] at hc
      exact hc ▸ withReg_not_register hr s _
  cases i with
  | hlt => cases h
  | ret => cases h
  | ldi a imm => exact one a _ h
  | prn a => exact one a _ h
  | push a => exact one a _ h
  | pop a => exact one a _ h
  | call a => exact one a _ h
  | jmp a => exact one a _ h
  | jeq a => exact one a _ h
  | jne a => exact one a _ h
  | mul a c => exact two a c _ h
  | add a c => exact two a c _ h
  | cmp a c => exact two a c _ h

end Sys2Proof.Machine
end

