-- ==== Sys2Proof/Laws/PerInstr.lean ====
section
/-! SUPPORT. Statements made for every instruction, one lemma per constructor. -/

namespace Sys2Proof.Laws.EncodedShape

/-- The encoding of an instruction starts with its row's byte and has the row's length (30_encoding.md R71, R80), and its
register operands are among the operand bytes in checking order. -/
def Statement (i : Instr) : Prop :=
  (encode i).head? = some i.opcode.byte ∧ (encode i).length = i.opcode.length ∧
    i.registerOperands <+: i.operandBytes

theorem hlt : Statement .hlt := ⟨rfl, rfl, List.prefix_refl _⟩
theorem ldi (a imm : Byte) : Statement (.ldi a imm) := ⟨rfl, rfl, ⟨[imm], rfl⟩⟩
theorem prn (a : Byte) : Statement (.prn a) := ⟨rfl, rfl, List.prefix_refl _⟩
theorem mul (a b : Byte) : Statement (.mul a b) := ⟨rfl, rfl, List.prefix_refl _⟩
theorem add (a b : Byte) : Statement (.add a b) := ⟨rfl, rfl, List.prefix_refl _⟩
theorem push (a : Byte) : Statement (.push a) := ⟨rfl, rfl, List.prefix_refl _⟩
theorem pop (a : Byte) : Statement (.pop a) := ⟨rfl, rfl, List.prefix_refl _⟩
theorem call (a : Byte) : Statement (.call a) := ⟨rfl, rfl, List.prefix_refl _⟩
theorem ret : Statement .ret := ⟨rfl, rfl, List.prefix_refl _⟩
theorem cmp (a b : Byte) : Statement (.cmp a b) := ⟨rfl, rfl, List.prefix_refl _⟩
theorem jmp (a : Byte) : Statement (.jmp a) := ⟨rfl, rfl, List.prefix_refl _⟩
theorem jeq (a : Byte) : Statement (.jeq a) := ⟨rfl, rfl, List.prefix_refl _⟩
theorem jne (a : Byte) : Statement (.jne a) := ⟨rfl, rfl, List.prefix_refl _⟩

end Sys2Proof.Laws.EncodedShape
end

