-- ==== Sys2Proof/Laws/Run.lean ====
section
/-! SUPPORT. Runs of the host's `core` in the model's own terms. -/

namespace Sys2Proof.Machine

/-- On any machine, a run of `k + 1` steps is a step and then a run of `k`. -/
theorem core_run_succ (M : Host.Core) {s t : M.State} (k : Nat) (h : M.step s = .next t) :
    M.run (k + 1) s = M.run k t := by simp [Host.Core.run, h]

theorem run_zero (s : State) : Sys2Proof.core.run 0 s = .next s := rfl

/-- A run of `k + 1` steps is a step and then a run of `k`. -/
theorem run_succ {s t : State} (k : Nat) (h : step s = .next t) :
    Sys2Proof.core.run (k + 1) s = Sys2Proof.core.run k t := core_run_succ Sys2Proof.core k h

/-- A block that takes no steps stays as it is, however long it is run. -/
theorem run_idle {s : State} (k : Nat) (h : s.takesSteps = false) : Sys2Proof.core.run k s = .next s := by
  induction k with
  | zero => exact run_zero s
  | succ k ih => rw [run_succ k (step_idle h), ih]

end Sys2Proof.Machine
end

