-- ==== Sys2Proof/Laws/Steps.lean ====
section
/-! SUPPORT. What a step and an execution can do, said once for all instructions: the inversions that invariants and
whole-machine claims are proved from. -/

namespace Sys2Proof.Machine

/-- A word the decoder accepts is a row of the table with its operands, well formed. -/
theorem decode_ok {ir a b : Byte} {i : Instr} (h : decode ir a b = .ok i) :
    ∃ o : Opcode, o.byte = ir ∧ i = o.withOperands a b ∧ i.wf = true := by
  rcases decode_cases ir a b with ⟨_, hd⟩ | ⟨o, ho, ⟨_, _, hd⟩ | ⟨_, _, _, hd⟩ | ⟨ha, hb, hd⟩⟩
  · rw [hd] at h; cases h
  · rw [hd] at h; cases h
  · rw [hd] at h; cases h
  · rw [hd] at h
    injection h with h
    refine ⟨o, ho, h.symm, ?_⟩
    rw [← h, Opcode.withOperands_wf]
    cases hra : o.control.ra <;> cases hrb : o.control.rb <;> cases hia : isRegister a <;> cases hib : isRegister b <;>
      simp_all

/-- A Running block's step in terms of the three bytes it fetches. -/
theorem step_eq_decode {s : State} (hs : s.status = .running) (hr : s.rst = false) :
    step s =
      match decode (s.readMem s.pc) (s.readMem (addrPlus s.pc 1)) (s.readMem (addrPlus s.pc 2)) with
      | .ok i => exec i s
      | .illegalOpcode ir => .next (s.takeFault .invalidInstruction ir)
      | .badRegister b => .next (s.takeFault .invalidRegister b) := by
  rw [step_running hs hr]; rfl

/-- Everything a step can do, with the opcode and operand bytes in memory that made it do so. -/
theorem step_inversion {s t : State} (h : step s = .next t) :
    (s.takesSteps = false ∧ t = s) ∨
    (s.takesSteps = true ∧ Opcode.ofByte? (s.readMem s.pc) = none ∧
      t = s.takeFault .invalidInstruction (s.readMem s.pc)) ∨
    (s.takesSteps = true ∧ ∃ o : Opcode, s.readMem s.pc = o.byte ∧
      ((o.control.ra = true ∧ isRegister (s.readMem (addrPlus s.pc 1)) = false ∧
          t = s.takeFault .invalidRegister (s.readMem (addrPlus s.pc 1))) ∨
       (o.control.rb = true ∧ isRegister (s.readMem (addrPlus s.pc 2)) = false ∧
          t = s.takeFault .invalidRegister (s.readMem (addrPlus s.pc 2))) ∨
       ((o.withOperands (s.readMem (addrPlus s.pc 1)) (s.readMem (addrPlus s.pc 2))).wf = true ∧
          exec (o.withOperands (s.readMem (addrPlus s.pc 1)) (s.readMem (addrPlus s.pc 2))) s = .next t))) := by
  cases hs : s.takesSteps with
  | false =>
    rw [step_idle hs] at h
    injection h with h
    exact .inl ⟨rfl, h.symm⟩
  | true =>
    right
    obtain ⟨hrun, hrst⟩ := takesSteps_iff.mp hs
    rw [step_eq_decode hrun hrst] at h
    rcases decode_cases (s.readMem s.pc) (s.readMem (addrPlus s.pc 1)) (s.readMem (addrPlus s.pc 2)) with
      ⟨hnone, hd⟩ | ⟨o, ho, ⟨hra, hbad, hd⟩ | ⟨_, hrb, hbad, hd⟩ | ⟨_, _, hd⟩⟩
    · rw [hd] at h
      injection h with h
      exact .inl ⟨rfl, hnone, h.symm⟩
    · rw [hd] at h
      injection h with h
      exact .inr ⟨rfl, o, ho.symm, .inl ⟨hra, hbad, h.symm⟩⟩
    · rw [hd] at h
      injection h with h
      exact .inr ⟨rfl, o, ho.symm, .inr (.inl ⟨hrb, hbad, h.symm⟩)⟩
    · obtain ⟨_, _, _, hwf⟩ := decode_ok hd
      rw [hd] at h
      exact .inr ⟨rfl, o, ho.symm, .inr (.inr ⟨hwf, h⟩)⟩

/-- Both conditional jumps as a jump to the pc_mux's choice. -/
theorem branchWhen_eq (s : State) (value : Bool) (target : Byte) :
    s.branchWhen value target = s.jump (if s.cmpFlag = value then target else addrPlus s.pc 2) := by
  rw [State.branchWhen_eq_jump, State.branchWhen_pc]

/-- Everything a well-formed instruction can do, by row of the opcode table. -/
theorem exec_inversion {o : Opcode} {a b : Byte} {s t : State} (hwf : (o.withOperands a b).wf = true)
    (h : exec (o.withOperands a b) s = .next t) :
    (o = .hlt ∧ t = s.halt) ∨
    (∃ d, a = regByte d ∧ o = .ldi ∧ t = (s.writeReg d b).advance 3) ∨
    (∃ r, a = regByte r ∧ o = .prn ∧ t = (s.emit (s.readReg r)).advance 2) ∨
    (∃ d r, a = regByte d ∧ b = regByte r ∧ o = .mul ∧
      t = (s.writeReg d (aluMul (s.readReg d) (s.readReg r))).advance 3) ∨
    (∃ d r, a = regByte d ∧ b = regByte r ∧ o = .add ∧
      t = (s.writeReg d (aluAdd (s.readReg d) (s.readReg r))).advance 3) ∨
    (∃ r, a = regByte r ∧ o = .push ∧ t = (s.pushByte fun q => q.readReg r).advance 2) ∨
    (∃ d, a = regByte d ∧ o = .pop ∧ t = (s.writeReg d (s.readMem s.sp)).incSp.advance 2) ∨
    (∃ r, a = regByte r ∧ o = .call ∧
      t = (s.pushByte fun q => addrPlus q.pc 2).jump ((s.pushByte fun q => addrPlus q.pc 2).readReg r)) ∨
    (o = .ret ∧ t = s.incSp.jump (s.readMem s.sp)) ∨
    (∃ d r, a = regByte d ∧ b = regByte r ∧ o = .cmp ∧
      t = (s.setCmpFlag (equalFlag (s.readReg d) (s.readReg r))).advance 3) ∨
    (∃ r, a = regByte r ∧ o = .jmp ∧ t = s.jump (s.readReg r)) ∨
    (∃ r, a = regByte r ∧ o = .jeq ∧ t = s.jump (if s.cmpFlag = true then s.readReg r else addrPlus s.pc 2)) ∨
    (∃ r, a = regByte r ∧ o = .jne ∧ t = s.jump (if s.cmpFlag = false then s.readReg r else addrPlus s.pc 2)) := by
  cases o <;>
    simp only [Opcode.withOperands, Instr.wf, Instr.registerOperands, List.all_cons, List.all_nil, Bool.and_true,
      Bool.and_eq_true, isRegister_eq_true] at h hwf <;>
    simp only [reduceCtorEq, false_and, and_false, exists_false, false_or, or_false, true_and]
  case hlt =>
    rw [exec_hlt] at h
    injection h with h
    exact h.symm
  case ret =>
    rw [exec_ret] at h
    injection h with h
    exact h.symm
  case mul =>
    obtain ⟨⟨d, rfl⟩, r, rfl⟩ := hwf
    rw [exec_mul] at h
    injection h with h
    exact ⟨d, r, rfl, rfl, h.symm⟩
  case add =>
    obtain ⟨⟨d, rfl⟩, r, rfl⟩ := hwf
    rw [exec_add] at h
    injection h with h
    exact ⟨d, r, rfl, rfl, h.symm⟩
  case cmp =>
    obtain ⟨⟨d, rfl⟩, r, rfl⟩ := hwf
    rw [exec_cmp] at h
    injection h with h
    exact ⟨d, r, rfl, rfl, h.symm⟩
  all_goals
    obtain ⟨d, rfl⟩ := hwf
    first
      | rw [exec_ldi] at h
      | rw [exec_prn] at h
      | rw [exec_push] at h
      | rw [exec_pop] at h
      | rw [exec_call] at h
      | rw [exec_jmp] at h
      | rw [exec_jeq, branchWhen_eq] at h
      | rw [exec_jne, branchWhen_eq] at h
    injection h with h
    exact ⟨d, rfl, h.symm⟩

/-- Every instruction, well formed or not, answers a next state: `exec` never stops the machine. -/
theorem exec_answers_next (i : Instr) (s : State) : ∃ t, exec i s = .next t := by
  cases hb : firstBadOperand i with
  | some b => exact ⟨_, exec_bad_operand hb s⟩
  | none =>
    have hwf := firstBadOperand_eq_none.mp hb
    cases i <;>
      simp only [Instr.wf, Instr.registerOperands, List.all_cons, List.all_nil, Bool.and_true, Bool.and_eq_true,
        isRegister_eq_true] at hwf
    case hlt => exact ⟨_, exec_hlt s⟩
    case ret => exact ⟨_, exec_ret s⟩
    case mul => obtain ⟨⟨d, rfl⟩, r, rfl⟩ := hwf; exact ⟨_, exec_mul d r s⟩
    case add => obtain ⟨⟨d, rfl⟩, r, rfl⟩ := hwf; exact ⟨_, exec_add d r s⟩
    case cmp => obtain ⟨⟨d, rfl⟩, r, rfl⟩ := hwf; exact ⟨_, exec_cmp d r s⟩
    case ldi => obtain ⟨d, rfl⟩ := hwf; exact ⟨_, exec_ldi d _ s⟩
    case prn => obtain ⟨r, rfl⟩ := hwf; exact ⟨_, exec_prn r s⟩
    case push => obtain ⟨r, rfl⟩ := hwf; exact ⟨_, exec_push r s⟩
    case pop => obtain ⟨d, rfl⟩ := hwf; exact ⟨_, exec_pop d s⟩
    case call => obtain ⟨r, rfl⟩ := hwf; exact ⟨_, exec_call r s⟩
    case jmp => obtain ⟨r, rfl⟩ := hwf; exact ⟨_, exec_jmp r s⟩
    case jeq => obtain ⟨r, rfl⟩ := hwf; exact ⟨_, exec_jeq r s⟩
    case jne => obtain ⟨r, rfl⟩ := hwf; exact ⟨_, exec_jne r s⟩

/-- A step always answers a next state: nothing raises `Fault` or `Refusal`. -/
theorem step_answers_next (s : State) : ∃ t, step s = .next t := by
  cases hs : s.takesSteps with
  | false => exact ⟨s, step_idle hs⟩
  | true =>
    obtain ⟨hrun, hrst⟩ := takesSteps_iff.mp hs
    rw [step_eq_decode hrun hrst]
    cases decode (s.readMem s.pc) (s.readMem (addrPlus s.pc 1)) (s.readMem (addrPlus s.pc 2)) with
    | ok i => exact exec_answers_next i s
    | illegalOpcode ir => exact ⟨_, rfl⟩
    | badRegister b => exact ⟨_, rfl⟩

/-! ### Placing bytes where the next step fetches them -/

/-- An instruction is placed when the bytes read from pc on are its encoding. -/
theorem placed_of_bytes {i : Instr} {s : State} (hrun : s.status = .running) (hrst : s.rst = false)
    (h : (List.range (encode i).length).map (fun k => s.readMem (addrPlus s.pc k)) = encode i) : Placed i s := by
  refine ⟨hrun, hrst, fun k v hk => ?_⟩
  rw [← h] at hk
  simp only [List.getElem?_map, Option.map_eq_some_iff, List.getElem?_eq_some_iff, List.getElem_range] at hk
  obtain ⟨j, ⟨_, rfl⟩, hv⟩ := hk
  exact hv

theorem addrPlus_ne {p : Byte} {m n : Nat} (hne : m ≠ n) (hm : m < 256) (hn : n < 256) : addrPlus p m ≠ addrPlus p n := by
  intro h
  have ht := congrArg BitVec.toNat h
  rw [addrPlus_toNat, addrPlus_toNat] at ht
  omega

/-- The step after `withFetchWord` runs exactly the instruction the decoder reads from the word. -/
theorem step_withFetchWord {s : State} {nbits w : Nat} {i : Instr} (hm : s.mem.wf = true)
    (hd : decodeTableWord nbits w = some i) : step (s.withFetchWord nbits w) = exec i (s.withFetchWord nbits w) := by
  have h1 := Memory.wf_write hm s.pc (tableByte nbits w 0)
  have h2 := Memory.wf_write h1 (addrPlus s.pc 1) (tableByte nbits w 1)
  have n01 : s.pc ≠ addrPlus s.pc 1 := by
    have h := addrPlus_ne (p := s.pc) (m := 0) (n := 1) (by omega) (by omega) (by omega)
    rwa [addrPlus_zero] at h
  have n02 : s.pc ≠ addrPlus s.pc 2 := by
    have h := addrPlus_ne (p := s.pc) (m := 0) (n := 2) (by omega) (by omega) (by omega)
    rwa [addrPlus_zero] at h
  have n12 := addrPlus_ne (p := s.pc) (m := 1) (n := 2) (by omega) (by omega) (by omega)
  have r0 : (s.withFetchWord nbits w).readMem s.pc = tableByte nbits w 0 := by
    rw [State.withFetchWord, State.readMem_enabled, placeWord, State.readMem_writeMem_other _ _ n02,
      State.readMem_writeMem_other _ _ n01, State.readMem_writeMem_same hm]
  have r1 : (s.withFetchWord nbits w).readMem (addrPlus s.pc 1) = tableByte nbits w 1 := by
    rw [State.withFetchWord, State.readMem_enabled, placeWord, State.readMem_writeMem_other _ _ n12,
      State.readMem_writeMem_same h1]
  have r2 : (s.withFetchWord nbits w).readMem (addrPlus s.pc 2) = tableByte nbits w 2 := by
    rw [State.withFetchWord, State.readMem_enabled, placeWord, State.readMem_writeMem_same h2]
  have hpc : (s.withFetchWord nbits w).pc = s.pc := rfl
  rw [step_eq_decode rfl rfl, hpc, r0, r1, r2]
  unfold decodeTableWord at hd
  cases hdec : decode (tableByte nbits w 0) (tableByte nbits w 1) (tableByte nbits w 2) with
  | ok j => rw [hdec] at hd; injection hd with hd; rw [hd]
  | illegalOpcode ir => rw [hdec] at hd; cases hd
  | badRegister b => rw [hdec] at hd; cases hd

end Sys2Proof.Machine
end

