-- ==== Sys2Proof/Machine/Assembly.lean ====
section
/-! DEFINITION. The assembly notation of 30_encoding.md R83 as structured items: what bytes a program assembles to. Its
text form is notation only; `SP` is another spelling of R7, and `Rn` with n in 8..255 is an ill-formed instruction. -/

namespace Sys2Proof.Machine

/-- One line of a program. Labels are told apart by a number instead of a name. -/
inductive AsmItem where
  /-- An instruction. -/
  | instr (i : Instr)
  /-- `.byte v`: data. -/
  | byte (v : Byte)
  /-- `name:`, the address of the next byte. -/
  | label (name : Nat)
  /-- `LDI Ra, name`: the only way to reach a label (R83). -/
  | ldiLabel (a : Byte) (name : Nat)
deriving DecidableEq, Repr

/-- How many bytes a line takes. -/
def AsmItem.size : AsmItem → Nat
  | .instr i => (encode i).length
  | .byte _ => 1
  | .label _ => 0
  | .ldiLabel _ _ => Opcode.ldi.length

/-- The address of a label in a program that starts at an address: the address of the next byte (R83), modulo 256. DESIGN
CHOICE (log entry 14): R83 does not say what a label stands for that is defined twice, or whose next byte lies past 0xFF;
the first definition in the program counts, and the address wraps. A label with no definition has none. -/
def labelAddress (name : Nat) (addr : Byte) : List AsmItem → Option Byte
  | [] => none
  | .label n :: rest => if n = name then some addr else labelAddress name addr rest
  | item :: rest => labelAddress name (addrPlus addr item.size) rest

/-- The bytes of one line, given where labels stand; none if it names a label with no definition (log entry 14). -/
def AsmItem.bytes (lookup : Nat → Option Byte) : AsmItem → Option (List Byte)
  | .instr i => some (encode i)
  | .byte v => some [v]
  | .label _ => some []
  | .ldiLabel a name => (lookup name).map fun addr => encode (.ldi a addr)

/-- The lines' bytes one after another. -/
def assembleWith (lookup : Nat → Option Byte) : List AsmItem → Option (List Byte)
  | [] => some []
  | item :: rest =>
    match item.bytes lookup, assembleWith lookup rest with
    | some here, some after => some (here ++ after)
    | _, _ => none

/-- The image of a program loaded at address 0. -/
def assemble (program : List AsmItem) : Option (List Byte) :=
  assembleWith (fun name => labelAddress name Config.loadBase program) program

end Sys2Proof.Machine
end

