-- ==== Sys2Proof/Tests/Slice0.lean ====
section
/-! SUPPORT. Small tests: the well-formedness smoke, decoding of words written out from 30_encoding.md R71, single steps
whose expected results are vectors of 95_test_vectors.md, and a witness for the hypotheses of every statement. -/

namespace Sys2Proof.Tests

open Sys2Proof.Machine

/-! ### Helpers -/

/-- The reset state with some registers set. -/
def setRegs (regs : List (Fin 8 × Byte)) : State := regs.foldl (fun s r => s.writeReg r.1 r.2) State.reset

/-- A state with bytes at ascending addresses from an address, modulo 256. -/
def putBytes (s : State) (addr : Byte) : List Byte → State
  | [] => s
  | v :: rest => putBytes (s.writeMem addr v) (addrPlus addr 1) rest

/-- The reset state with registers, the flag, pc, and bytes at pc. -/
def runAt (pc : Byte) (bytes : List Byte) (regs : List (Fin 8 × Byte) := []) (flag : Bool := false) : State :=
  { putBytes (setRegs regs) pc bytes with pc := pc, cmpFlag := flag }

/-- Some observations of the state after one step. -/
def after {α : Type} (s : State) (look : State → α) : Option α :=
  match step s with
  | .next t => some (look t)
  | .fault _ => none
  | .refused _ => none

/-! ### Well-formedness refuses each bad register operand (R78); an immediate is not checked (R75) -/

theorem test_wf_refuses_bad_operand_a :
    [Instr.ldi 8 1, .prn 8, .mul 8 0, .add 255 0, .push 8, .pop 255, .call 8, .cmp 8 0, .jmp 9, .jeq 9, .jne 9].all
      (fun i => !i.wf) = true := by decide

theorem test_wf_refuses_bad_operand_b : [Instr.mul 7 8, .add 0 9, .cmp 0 8].all (fun i => !i.wf) = true := by decide

theorem test_wf_accepts_every_immediate : (Instr.ldi 7 255).wf = true := by decide

/-! ### Decoding: each row's word, bit by bit from R71 -/

theorem test_decode_hlt : decode 0b00000001#8 0xFF#8 0xFF#8 = .ok .hlt := by decide
theorem test_decode_ldi : decode 0b10000010#8 0b00000101#8 0b11111111#8 = .ok (.ldi 5 255) := by decide
theorem test_decode_prn : decode 0b01000111#8 0b00000111#8 0xFF#8 = .ok (.prn 7) := by decide
theorem test_decode_mul : decode 0b10100010#8 0b00000000#8 0b00000001#8 = .ok (.mul 0 1) := by decide
theorem test_decode_add : decode 0b10100000#8 0b00000110#8 0b00000011#8 = .ok (.add 6 3) := by decide
theorem test_decode_push : decode 0b01000101#8 0b00000010#8 0xFF#8 = .ok (.push 2) := by decide
theorem test_decode_pop : decode 0b01000110#8 0b00000001#8 0xFF#8 = .ok (.pop 1) := by decide
theorem test_decode_call : decode 0b01010000#8 0b00000100#8 0xFF#8 = .ok (.call 4) := by decide
theorem test_decode_ret : decode 0b00010001#8 0xFF#8 0xFF#8 = .ok .ret := by decide
theorem test_decode_cmp : decode 0b10100111#8 0b00000000#8 0b00000010#8 = .ok (.cmp 0 2) := by decide
theorem test_decode_jmp : decode 0b01010100#8 0b00000011#8 0xFF#8 = .ok (.jmp 3) := by decide
theorem test_decode_jeq : decode 0b01010101#8 0b00000011#8 0xFF#8 = .ok (.jeq 3) := by decide
theorem test_decode_jne : decode 0b01010110#8 0b00000011#8 0xFF#8 = .ok (.jne 3) := by decide

/-- `LDI R1, 0x0B` of R83, numbered as the opcode table numbers bits: operand_a 15..8, immediate 23..16. -/
theorem test_tableWord_ldi : decodeTableWord 24 0x0B0182 = some (.ldi 1 0x0B) := by decide

/-- A word shorter than the instruction has zeros above it. -/
theorem test_tableWord_short : decodeTableWord 8 0xA2 = some (.mul 0 0) := by decide

theorem test_withFetchWord_runs_the_word :
    after (State.reset.withFetchWord 24 0x0B0182) (fun t => (t.readReg 1, t.pc)) = some (0x0B#8, 3#8) := by decide

/-! ### Single steps: vectors of 95_test_vectors.md, part L2 -/

/-- LDI-4. -/
theorem test_ldi_wraps :
    after (runAt 0xFE#8 [0x82, 0x01, 0x2A]) (fun t => (t.readReg 1, t.pc, t.status)) = some (0x2A, 0x01, .running) := by
  decide

/-- LDI-5. -/
theorem test_ldi_bad_register :
    after (runAt 0#8 [0x82, 0x08, 0x01]) (fun t => (t.pc, t.fault)) = some (0, some ⟨.invalidRegister, 8, 0⟩) := by decide

/-- ADD-5: the old value twice. -/
theorem test_add_same_register :
    after (runAt 0#8 [0xA0, 3, 3] [(3, 0x81)]) (fun t => (t.readReg 3, t.pc)) = some (0x02, 3) := by decide

/-- ADD-9: both operands bad, operand_a reported. -/
theorem test_add_reports_operand_a :
    after (runAt 0#8 [0xA0, 0x09, 0x0A]) (fun t => t.fault) = some (some ⟨.invalidRegister, 9, 0⟩) := by decide

/-- MUL-3. -/
theorem test_mul_wraps :
    after (runAt 0#8 [0xA2, 0, 1] [(0, 0xFF), (1, 0xFF)]) (fun t => (t.readReg 0, t.readReg 1)) = some (0x01, 0xFF) := by
  decide

/-- MUL-9: pc wraps. -/
theorem test_mul_at_top :
    after (runAt 0xFD#8 [0xA2, 0, 1] [(0, 3), (1, 5)]) (fun t => (t.readReg 0, t.pc)) = some (0x0F, 0x00) := by decide

/-- PUSH-2: SP wraps. -/
theorem test_push_wraps :
    after (runAt 0#8 [0x45, 0] [(0, 9), (7, 0)]) (fun t => (t.readReg 7, t.readMem 0xFF, t.pc)) = some (0xFF, 9, 2) := by
  decide

/-- PUSH-3: the decremented SP is stored. -/
theorem test_push_sp :
    after (runAt 0#8 [0x45, 7]) (fun t => (t.readReg 7, t.readMem 0xF3)) = some (0xF3, 0xF3) := by decide

/-- POP-2: SP wraps. -/
theorem test_pop_wraps :
    after ((runAt 0#8 [0x46, 0] [(7, 0xFF)]).writeMem 0xFF 0x33) (fun t => (t.readReg 0, t.readReg 7, t.readMem 0xFF)) =
      some (0x33, 0x00, 0x33) := by decide

/-- POP-3: the loaded value is incremented. -/
theorem test_pop_sp :
    after ((runAt 0#8 [0x46, 7] [(7, 0xF3)]).writeMem 0xF3 0xF3) (fun t => (t.readReg 7, t.pc)) = some (0xF4, 2) := by
  decide

/-- CALL-2: the return address wraps, and a store of 0x00 shows. -/
theorem test_call_at_top :
    after ((runAt 0xFE#8 [0x50, 1] [(1, 0x20)]).writeMem 0xF3 0xAA) (fun t => (t.readReg 7, t.readMem 0xF3, t.pc)) =
      some (0xF3, 0x00, 0x20) := by decide

/-- CALL-3: jumps to the decremented SP. -/
theorem test_call_sp :
    after (runAt 0#8 [0x50, 7]) (fun t => (t.readReg 7, t.readMem 0xF3, t.pc)) = some (0xF3, 0x02, 0xF3) := by decide

/-- RET-1. -/
theorem test_ret :
    after ((runAt 0x15#8 [0x11] [(7, 0xF3)]).writeMem 0xF3 0x08) (fun t => (t.readReg 7, t.pc)) = some (0xF4, 0x08) := by
  decide

/-- RET-2: SP wraps. -/
theorem test_ret_wraps :
    after ((runAt 0x15#8 [0x11] [(7, 0xFF)]).writeMem 0xFF 0x30) (fun t => (t.readReg 7, t.pc)) = some (0x00, 0x30) := by
  decide

/-- CMP-2: clears the flag, all 8 bits compared. -/
theorem test_cmp_unequal :
    after (runAt 0#8 [0xA7, 0, 2] [(2, 0xFF)] true) (fun t => (t.cmpFlag, t.pc)) = some (false, 3) := by decide

/-- CMP-3. -/
theorem test_cmp_self :
    after (runAt 0#8 [0xA7, 4, 4] [(4, 0x99)]) (fun t => (t.cmpFlag, t.readReg 4)) = some (true, 0x99) := by decide

/-- JMP-1. -/
theorem test_jmp : after (runAt 0x12#8 [0x54, 3] [(3, 0x16)]) (fun t => t.pc) = some 0x16 := by decide

/-- JMP-2: a jump to itself changes nothing. -/
theorem test_jmp_self : after (runAt 0x12#8 [0x54, 3] [(3, 0x12)]) id = some (runAt 0x12#8 [0x54, 3] [(3, 0x12)]) := by
  decide

/-- JEQ-3: not taken at 0xFF. -/
theorem test_jeq_not_taken_wraps : after (runAt 0xFF#8 [0x55, 3] [(3, 0x16)]) (fun t => t.pc) = some 0x01 := by decide

/-- JEQ-4: a bad register faults although not taken. -/
theorem test_jeq_bad_register :
    after (runAt 0x12#8 [0x55, 9]) (fun t => (t.pc, t.fault)) = some (0x12, some ⟨.invalidRegister, 9, 0x12⟩) := by decide

/-- JNE-1. -/
theorem test_jne_taken : after (runAt 0x14#8 [0x56, 3] [(3, 0x0C)]) (fun t => t.pc) = some 0x0C := by decide

/-- JNE-2. -/
theorem test_jne_not_taken :
    after (runAt 0x14#8 [0x56, 3] [(3, 0x0C)] true) (fun t => (t.pc, t.cmpFlag)) = some (0x16, true) := by decide

/-- HLT-2. -/
theorem test_hlt_at_top : after (runAt 0xFF#8 [0x01]) (fun t => (t.status, t.pc)) = some (.halted, 0xFF) := by decide

/-- PRN-2 with output already there: appended at the end. -/
theorem test_prn_appends :
    after ((runAt 0#8 [0x47, 1] [(1, 0xFF)]).emit 72) (fun t => (t.out, t.pc)) = some ([72, 255], 2) := by decide

/-- PRN-4: a fault emits nothing. -/
theorem test_prn_bad_register :
    after (runAt 0#8 [0x47, 8]) (fun t => (t.out, t.fault)) = some ([], some ⟨.invalidRegister, 8, 0⟩) := by decide

/-- ILL-1: cleared memory is no NOP. -/
theorem test_illegal_zero : after State.reset (fun t => t.fault) = some (some ⟨.invalidInstruction, 0, 0⟩) := by decide

/-- ILL-5: the opcode is reported before bad operands. -/
theorem test_illegal_opcode_first :
    after (runAt 0#8 [0x83, 9, 9]) (fun t => (t.status, t.fault)) =
      some (.faulted, some ⟨.invalidInstruction, 0x83, 0⟩) := by decide

/-- T3's image, booted: the first byte is fetched at 0x00, memory past it is 0x00, SP is 0xF4. -/
theorem test_boot :
    (State.reset.bootImage [0x82, 0x00, 0x08]).map (fun t => ((fetch t).ir, t.readMem 2, t.readMem 3, t.readReg 7, t.rst)) =
      some (0x82, 0x08, 0x00, 0xF4, false) := by decide

/-- Program P2's first lines with its label `sub`, and its image's bytes. -/
theorem test_assemble_label :
    assemble [.instr (.ldi 0 5), .ldiLabel 1 0, .instr (.call 1), .instr (.prn 0), .instr .hlt, .label 0,
      .instr (.push 0), .byte 0x2C] =
      some [0x82, 0x00, 0x05, 0x82, 0x01, 0x0B, 0x50, 0x01, 0x47, 0x00, 0x01, 0x45, 0x00, 0x2C] := by decide

/-- A load write outside reset is ignored (R42). -/
theorem test_load_ignored_while_running : State.reset.hostWrite 5 7 = State.reset := by decide

/-- The datapath's step on PUSH R7 and POP R7 (R188). -/
theorem test_datapath_push_pop_sp :
    datapathStep (runAt 0#8 [0x45, 7]) = step (runAt 0#8 [0x45, 7]) ∧
    datapathStep (runAt 0#8 [0x46, 7]) = step (runAt 0#8 [0x46, 7]) := by constructor <;> rfl

/-! ### Witnesses: every statement's hypotheses can be met -/

/-- One instruction of each row with its registers at the ends of 0..7, its bytes across the top of memory. -/
def eachInstr : List Instr :=
  [.hlt, .ldi 7 0xFF, .prn 0, .mul 0 7, .add 7 0, .push 7, .pop 7, .call 7, .ret, .cmp 0 7, .jmp 7, .jeq 0, .jne 7]

/-- Ill-formed instructions at both ends of 8..255, for each operand. -/
def eachIllFormed : List Instr :=
  [.ldi 8 0, .ldi 255 0, .prn 8, .prn 255, .mul 8 0, .mul 7 8, .mul 255 255, .add 8 0, .add 7 255, .add 255 8, .push 8,
   .push 255, .pop 8, .pop 255, .call 8, .call 255, .cmp 8 0, .cmp 0 8, .cmp 255 255, .jmp 8, .jmp 255, .jeq 8, .jeq 255,
   .jne 8, .jne 255]

/-- DecodeOfEncodeIsTheInstruction, StepRunsDecodedInstruction: well-formed instructions of every row. -/
theorem witness_wellFormed : eachInstr.all Instr.wf = true := by decide

/-- The second clauses of the instruction statements: operands 8 and 255, either operand bad, and both. -/
theorem witness_illFormed : eachIllFormed.all (fun i => !i.wf) = true := by decide

/-- Every `Placed` hypothesis: each instruction, well formed or not, stands at pc = 0xFE in some Running state. -/
theorem witness_placed : ∀ i ∈ eachInstr ++ eachIllFormed, Placed i (runAt 0xFE#8 (encode i)) := by
  intro i hi
  have h : ∀ j ∈ eachInstr ++ eachIllFormed, (runAt 0xFE#8 (encode j)).status = .running ∧
      (runAt 0xFE#8 (encode j)).rst = false ∧
      (List.range (encode j).length).map (fun k => (runAt 0xFE#8 (encode j)).readMem
        (addrPlus (runAt 0xFE#8 (encode j)).pc k)) = encode j := by decide
  exact placed_of_bytes (h i hi).1 (h i hi).2.1 (h i hi).2.2

/-- EncodeOfDecodeIsTheWord. -/
theorem witness_EncodeOfDecodeIsTheWord : decode 0xA0 7 0 = .ok (.add 7 0) := by decide

/-- EncodingsArePrefixFree. -/
theorem witness_EncodingsArePrefixFree : encode (.push 7) <+: encode (.push 7) ++ [0x01] := ⟨[0x01], rfl⟩

/-- OpcodeBitsShareAPattern: a byte that fits the pattern and is no row's. -/
theorem witness_OpcodeBitsShareAPattern : ∀ o : Opcode, o.byte ≠ 0xA1#8 := by intro o; cases o <;> decide

/-- IllegalOpcodesAreTheOther243, StepChecksInOrderThenExecutes, RunningStepCompletesHaltsOrFaults, FaultsArePrecise: a
Running state at an illegal opcode, which faults. -/
theorem witness_illegal :
    State.reset.status = .running ∧ State.reset.rst = false ∧ State.reset.readMem State.reset.pc = 0x00#8 ∧
      after State.reset (fun t => t.status) = some .faulted := by decide

/-- StepChecksInOrderThenExecutes: the other three branches, at operands 7 and 8. -/
theorem witness_StepChecksInOrderThenExecutes :
    after (runAt 0 [0xA0, 8, 7]) (fun t => t.fault) = some (some ⟨.invalidRegister, 8, 0⟩) ∧
    after (runAt 0 [0xA0, 7, 8]) (fun t => t.fault) = some (some ⟨.invalidRegister, 8, 0⟩) ∧
    after (runAt 0 [0xA0, 7, 7]) (fun t => t.fault) = some none := by decide

/-- StepRunsDecodedInstruction, first clause. -/
theorem witness_StepRunsDecodedInstruction :
    let s := runAt 0xFE#8 [0x82, 7, 0xFF]
    s.status = .running ∧ s.rst = false ∧
      decode (s.readMem s.pc) (s.readMem (addrPlus s.pc 1)) (s.readMem (addrPlus s.pc 2)) = .ok (.ldi 7 0xFF) := by decide

/-- TerminalStatesWaitForReset: a halted and a faulted state, and moves that do not assert reset. -/
theorem witness_TerminalStatesWaitForReset :
    State.reset.halt.rst = false ∧ State.reset.halt.status ≠ .running ∧
    (State.reset.takeFault .invalidInstruction 0).rst = false ∧
    (State.reset.takeFault .invalidInstruction 0).status ≠ .running ∧
    Move.rst true ∉ [Move.step, .load 0 1, .rst false] := by decide

/-- NextPcFollowsThePcMux: a step that does not fault for each of the 13 opcodes at either flag value, and one that
does. -/
theorem witness_NextPcFollowsThePcMux :
    (∀ i ∈ eachInstr, ∀ flag : Bool,
      after (runAt 0xFE#8 (encode i) [] flag) (fun t => t.status != .faulted) = some true) ∧
    after (runAt 0#8 [0x55, 8]) (fun t => t.status) = some .faulted := by decide

/-- Canonical memory with listed cells: PushStoresBelowTheOldSp, CallPushesReturnAddressAndJumps, StackRoundTrips,
MemoryReadsTheLatestWrite, StoresAreSeenByTheNextFetch. -/
theorem witness_canonical_memory :
    Memory.wf [(0, 0x45#8), (1, 0x07#8), (255, 0xFF#8)] = true ∧ Memory.wf [(0, 0#8)] = false ∧
    Memory.wf [(1, 1#8), (0, 1#8)] = false ∧ Memory.wf [(1, 1#8), (1, 2#8)] = false ∧
    Memory.wf [(256, 1#8)] = false := by decide

/-- StackRoundTrips: a push and a call that answer, and a state with the SP and slot the call left. -/
theorem witness_StackRoundTrips :
    State.reset.mem.wf = true ∧ (∃ t, exec (.push (regByte 7)) State.reset = .next t) ∧
    ∃ t, exec (.call (regByte 7)) State.reset = .next t ∧ t.readReg 7 = t.readReg 7 ∧
      t.readMem (t.readReg 7) = t.readMem (t.readReg 7) :=
  ⟨rfl, ⟨_, exec_push 7 _⟩, ⟨_, exec_call 7 _, rfl, rfl⟩⟩

/-- CompareThenBranchGoesOppositeWays: an equal and an unequal pair. -/
theorem witness_CompareThenBranchGoesOppositeWays :
    (∃ t, exec (.cmp (regByte 0) (regByte 1)) State.reset = .next t) ∧
    State.reset.readReg 0 = State.reset.readReg 1 ∧ State.reset.readReg 0 ≠ State.reset.readReg 7 :=
  ⟨⟨_, exec_cmp 0 1 _⟩, by decide, by decide⟩

/-- UnsupportedOperationIsUnreachable: a run from a state without a record that reaches one. -/
theorem witness_UnsupportedOperationIsUnreachable :
    State.reset.fault = none ∧ Sys2Proof.core.run 1 State.reset =
      .next (State.reset.takeFault .invalidInstruction 0x00#8) := ⟨rfl, rfl⟩

/-- FlagIsCmpsToWriteAndBranchesToRead: a step that is no CMP, JEQ or JNE; one that faults; a CMP that does not. -/
theorem witness_FlagIsCmpsToWriteAndBranchesToRead :
    after (runAt 0 [0xA0, 0, 1]) (fun t => t.status) = some .running ∧
    after (runAt 0 [0xA7, 0, 8]) (fun t => t.status) = some .faulted ∧
    after (runAt 0 [0xA7, 0, 7]) (fun t => t.status) = some .running := by decide

/-- OutputIsAppendedByPrnOnly: a PRN that does not fault, one that does, another opcode, a halted block, one in reset. -/
theorem witness_OutputIsAppendedByPrnOnly :
    after (runAt 0 [0x47, 7]) (fun t => (t.status, t.out)) = some (.running, [0xF4]) ∧
    after (runAt 0 [0x47, 8]) (fun t => (t.status, t.out)) = some (.faulted, []) ∧
    after (runAt 0 [0x54, 7]) (fun t => t.out) = some [] ∧
    after (runAt 0 [0x47, 7]).halt (fun t => t.out) = some [] ∧
    after { runAt 0 [0x47, 7] with rst := true } (fun t => t.out) = some [] := by decide

/-- RegistersChangeOnlyAsTheTableSays: a step that changes a register by operand_a, and one that changes SP. -/
theorem witness_RegistersChangeOnlyAsTheTableSays :
    after (runAt 0 [0x82, 0, 5]) (fun t => t.readReg 0 ≠ (runAt 0 [0x82, 0, 5]).readReg 0) = some True ∧
    after (runAt 0 [0x11]) (fun t => t.readReg 7 ≠ (runAt 0 [0x11]).readReg 7) = some True := by
  constructor <;> simp only [after] <;> exact congrArg some (eq_true (by decide))

/-- MemoryChangesOnlyByPushAndCall: a step that changes a byte. -/
theorem witness_MemoryChangesOnlyByPushAndCall :
    (runAt 0 [0x50, 0]).readMem 0xF3 = 0 ∧ after (runAt 0 [0x50, 0]) (fun t => t.readMem 0xF3) = some 2 := by decide

/-- StepReadsOnlyFetchAndStackBytes: a RET and another memory that agrees at pc, pc + 1, pc + 2 and SP, and not
elsewhere. -/
theorem witness_StepReadsOnlyFetchAndStackBytes :
    let s := runAt 0#8 [0x11]
    let other := s.mem.write 0x80 1
    after s (fun t => t.status) = some .running ∧ other ≠ s.mem ∧
    (∀ k, k < 3 → ({ s with mem := other } : State).readMem (addrPlus s.pc k) = s.readMem (addrPlus s.pc k)) ∧
    ({ s with mem := other } : State).readMem s.sp = s.readMem s.sp := by decide

/-- CanonicalMemoriesThatReadAlikeAreEqual: canonical memories written in two orders. -/
theorem witness_CanonicalMemoriesThatReadAlikeAreEqual :
    let s := (State.reset.writeMem 9 1).writeMem 3 2
    let t := (State.reset.writeMem 3 2).writeMem 9 1
    s.mem.wf = true ∧ t.mem.wf = true ∧ KeepsMem s t := ⟨by decide, by decide, fun _ => rfl⟩

/-- StoresAreSeenByTheNextFetch: program P8's PUSH at 0x06 with SP = 9, which stores where the next fetch reads, and a
`CALL R7`, which jumps to the byte it stored. -/
theorem witness_StoresAreSeenByTheNextFetch :
    after (runAt 6#8 [0x45, 0] [(0, 1), (7, 9)]) (fun t => (t.pc, (fetch t).ir)) = some (0x08, 0x01) ∧
    after (runAt 0#8 [0x50, 7]) (fun t => (t.pc, (fetch t).ir)) = some (0xF3, 0x02) ∧
    (runAt 6#8 [0x45, 0] [(0, 1), (7, 9)]).mem.wf = true := by decide

/-- ResetAtAnyStatusGivesTheResetValues, BootLeavesResetValuesAndTheImage: `rst` released at each status, and image
lengths at the bound. -/
theorem witness_reset_and_boot :
    State.reset.rst = false ∧ State.reset.halt.rst = false ∧ (State.reset.takeFault .invalidRegister 8).rst = false ∧
    (List.replicate 256 1#8).length ≤ 256 ∧ 256 < (List.replicate 257 1#8).length := by
  exact ⟨rfl, rfl, rfl, Nat.le_of_eq List.length_replicate,
    Nat.lt_of_lt_of_eq (by omega : 256 < 257) List.length_replicate.symm⟩

/-- LoadPortWritesOnlyUnderReset: a block held in reset. -/
theorem witness_LoadPortWritesOnlyUnderReset :
    (State.reset.driveRst true).rst = true ∧ (State.reset.driveRst true).mem.wf = true ∧
    ((State.reset.driveRst true).hostWrite 255 7).readMem 255 = 7 := by decide

/-- PortsShowStatusAndFaultRecord: a Faulted state with its record, and a state at another status. -/
theorem witness_PortsShowStatusAndFaultRecord :
    let s := State.reset.takeFault .invalidRegister 8
    s.status = .faulted ∧ s.fault = some ⟨.invalidRegister, 8, 0⟩ ∧ State.reset.status ≠ .faulted ∧
    faultPortsMayShow s 2 8 0 = true ∧ faultPortsMayShow s 1 8 0 = false ∧ faultPortsMayShow State.reset 7 1 2 = true := by
  decide

/-- EveryStepKeepsTheInvariant, EveryMoveSequenceKeepsTheInvariant: a Running state with a program, a halted one, a
Faulted one for each reachable cause, and one held in reset with a byte loaded. -/
theorem witness_invariant :
    Inv (runAt 0#8 [0x82, 0, 7]) ∧ Inv (runAt 0#8 [0x01]).halt ∧
    Inv (State.reset.takeFault .invalidInstruction 0) ∧ Inv ((runAt 0#8 [0xA0, 7, 8]).takeFault .invalidRegister 8) ∧
    Inv ((State.reset.driveRst true).hostWrite 255 7) ∧
    after (runAt 0#8 [0x82, 0, 7]) (fun t => t.readReg 0) = some 7 := by
  have faulted : ∀ {s : State} {r : FaultRecord}, s.fault = some r → (∀ q, s.fault = some q → q = r) := by
    intro s r h q hq
    exact (Option.some.inj (h.symm.trans hq)).symm
  refine ⟨?_, ?_, ?_, ?_, ?_, by decide⟩
  · exact ⟨by decide, by decide, nofun, nofun, nofun, nofun⟩
  · exact ⟨by decide, by decide, nofun, nofun, fun _ => by decide, nofun⟩
  · refine ⟨by decide, by decide, fun r hr => ?_, fun r hr => ?_, nofun, nofun⟩ <;> obtain rfl := faulted rfl r hr
    · rfl
    · exact .inl (by decide)
  · refine ⟨by decide, by decide, fun r hr => ?_, fun r hr => ?_, nofun, nofun⟩ <;> obtain rfl := faulted rfl r hr
    · rfl
    · exact .inr (by decide)
  · exact ⟨by decide, by decide, nofun, nofun, nofun, fun _ => rfl⟩

/-- RunningStepFaultsExactlyWhenNoInstructionIsFetched, SafeRunsExecuteWellFormedInstructions: a Running state whose first
step runs an instruction and whose second one faults. -/
theorem witness_running_then_faulted :
    let s := runAt 0xFE#8 [0x47, 7]
    s.status = .running ∧ s.rst = false ∧ safeRun 1 s = true ∧ safeRun 2 s = false ∧
    after s (fun t => t.status) = some .running := by decide

end Sys2Proof.Tests
end

section
/-! What an opcode byte and the bytes of a placed instruction say about the decoder's answer. -/

namespace Sys2Proof

/-- The rows of the opcode table are told apart by their bytes. -/
theorem Opcode.byte_inj {o p : Opcode} : o.byte = p.byte ↔ o = p := by
  refine ⟨fun h => ?_, congrArg Opcode.byte⟩
  have hfind := Opcode.ofByte?_eq_some.mpr h
  rw [Opcode.ofByte?_byte] at hfind
  exact (Option.some.inj hfind).symm

/-- A row with well-formed operands is what its own bytes decode to. -/
theorem decode_withOperands {o : Opcode} {a b : Byte} (hwf : (o.withOperands a b).wf = true) :
    decode o.byte a b = .ok (o.withOperands a b) := by
  rw [Opcode.withOperands_wf, Bool.and_eq_true] at hwf
  have ha : (o.control.ra && !isRegister a) = false := by simpa [or_iff_not_imp_left] using hwf.1
  have hb : (o.control.rb && !isRegister b) = false := by simpa [or_iff_not_imp_left] using hwf.2
  simp [decode, ha, hb]

/-- The encoding is the opcode byte and as many operand bytes as the row's length leaves (30_encoding.md R70, R71). -/
theorem encode_withOperands (o : Opcode) (a b : Byte) :
    encode (o.withOperands a b) = [o.byte, a, b].take o.length := by
  cases o <;> rfl

end Sys2Proof

namespace Sys2Proof.Machine

/-- The first byte of a placed instruction is its opcode byte. -/
theorem Placed.opcode_byte {i : Instr} {s : State} (h : Placed i s) : s.readMem s.pc = i.opcode.byte := by
  obtain ⟨-, -, hbytes⟩ := h
  simpa using hbytes 0 i.opcode.byte rfl

/-- A placed instruction is its row with the two bytes after the opcode as operands: a row drops the bytes it does not
have. -/
theorem Placed.eq_withOperands {i : Instr} {s : State} (h : Placed i s) :
    i = i.opcode.withOperands (s.readMem (addrPlus s.pc 1)) (s.readMem (addrPlus s.pc 2)) := by
  obtain ⟨-, -, hbytes⟩ := h
  have hfirst := hbytes 1
  have hsecond := hbytes 2
  cases i <;> simp [Instr.opcode, Opcode.withOperands, encode, Instr.operandBytes] at hfirst hsecond ⊢ <;>
    simp [hfirst, hsecond]

/-- The fetched bytes decode to exactly the well-formed instructions whose own bytes stand at pc
(30_encoding.md R71, R78). -/
theorem decode_eq_ok_iff_placed {s : State} (hrun : s.status = .running) (hrst : s.rst = false) (i : Instr) :
    decode (s.readMem s.pc) (s.readMem (addrPlus s.pc 1)) (s.readMem (addrPlus s.pc 2)) = .ok i ↔
      i.wf = true ∧ Placed i s := by
  constructor
  · intro hdec
    obtain ⟨o, hbyte, rfl, hwf⟩ := decode_ok hdec
    refine ⟨hwf, hrun, hrst, fun k v hk => ?_⟩
    rw [encode_withOperands, List.getElem?_take, Option.ite_none_right_eq_some] at hk
    match k, hk with
    | 0, ⟨_, hk⟩ => simpa [← hbyte] using hk
    | 1, ⟨_, hk⟩ => simpa using hk
    | 2, ⟨_, hk⟩ => simpa using hk
    | _ + 3, ⟨_, hk⟩ => simp at hk
  · rintro ⟨hwf, hplaced⟩
    have heq := hplaced.eq_withOperands
    rw [hplaced.opcode_byte]
    rw [heq] at hwf
    exact (decode_withOperands hwf).trans (congrArg DecodeResult.ok heq.symm)

/-- The step of a Running block at a well-formed instruction's bytes is its execution (40_execution_loop.md R104). -/
theorem step_of_placed {i : Instr} {s : State} (hwf : i.wf = true) (h : Placed i s) : step s = exec i s := by
  have ⟨hrun, hrst, _⟩ := h
  rw [step_eq_decode hrun hrst, (decode_eq_ok_iff_placed hrun hrst i).mpr ⟨hwf, h⟩]

end Sys2Proof.Machine
end

section
/-! What executing a well-formed instruction leaves unchanged, said once for all rows, and what a step then is. -/

namespace Sys2Proof.Machine

/-- The writes column of 10_state.md R21: row `o` with operand_a `a` may change register `q`. -/
def MayChangeRegister (o : Opcode) (a : Byte) (q : Fin 8) : Prop :=
  (o ∈ [Opcode.ldi, .add, .mul, .pop] ∧ a = regByte q) ∨ (o ∈ [Opcode.push, .pop, .call, .ret] ∧ q = 7)

/-- The frame of one executed instruction: row `o`, operand_a `a`, from `s` to `t`. -/
structure ExecFrame (o : Opcode) (a : Byte) (s t : State) : Prop where
  /-- HLT halts; every other instruction keeps status, record and `rst`. -/
  run_state : (o = .hlt ∧ t = s.halt) ∨ (o ≠ .hlt ∧ KeepsRunState s t)
  /-- Memory stays canonical. -/
  memory_canonical : s.mem.wf = true → t.mem.wf = true
  /-- Only CMP writes the flag (10_state.md R26). -/
  flag_kept : o ≠ .cmp → t.cmpFlag = s.cmpFlag
  /-- PRN appends its register's byte (44_system_output.md R151). -/
  prn_appends : o = .prn → ∃ r : Fin 8, a = regByte r ∧ t.out = s.out ++ [s.readReg r]
  /-- Only PRN writes the output (10_state.md R32). -/
  out_kept : o ≠ .prn → t.out = s.out
  /-- A register that changed is one the row may change (10_state.md R21). -/
  changed_register : ∀ q : Fin 8, t.readReg q ≠ s.readReg q → MayChangeRegister o a q

/-- The frame of a row that neither halts nor writes the flag or the output. -/
theorem ExecFrame.of_silent {o : Opcode} {a : Byte} {s t : State} (ho : o ∉ [Opcode.hlt, .cmp, .prn])
    (hstate : KeepsRunState s t) (hmem : s.mem.wf = true → t.mem.wf = true) (hflag : t.cmpFlag = s.cmpFlag)
    (hout : t.out = s.out) (hreg : ∀ q : Fin 8, t.readReg q ≠ s.readReg q → MayChangeRegister o a q) :
    ExecFrame o a s t where
  run_state := .inr ⟨by rintro rfl; simp at ho, hstate⟩
  memory_canonical := hmem
  flag_kept := fun _ => hflag
  prn_appends := by rintro rfl; simp at ho
  out_kept := fun _ => hout
  changed_register := hreg

/-- A register that a write changed is the one written. -/
theorem State.eq_of_readReg_writeReg_ne {s : State} {d q : Fin 8} {v : Byte}
    (h : (s.writeReg d v).readReg q ≠ s.readReg q) : q = d := by
  by_contra hne
  simp [Ne.symm hne] at h

/-- The rows that write one register and go on to the next instruction: LDI, ADD and MUL. -/
theorem execFrame_writeReg {o : Opcode} (ho : o ∈ [Opcode.ldi, .add, .mul]) (d : Fin 8) (v : Byte) (s : State) :
    ExecFrame o (regByte d) s ((s.writeReg d v).advance 3) := by
  refine .of_silent (by revert ho; cases o <;> decide) ⟨rfl, rfl, rfl⟩ id rfl rfl fun q hq => .inl ⟨?_, ?_⟩
  · revert ho; cases o <;> decide
  · exact congrArg regByte (State.eq_of_readReg_writeReg_ne hq).symm

/-- The rows that write the pc alone: JMP, JEQ and JNE. -/
theorem execFrame_jump {o : Opcode} (ho : o ∈ [Opcode.jmp, .jeq, .jne]) (a target : Byte) (s : State) :
    ExecFrame o a s (s.jump target) :=
  .of_silent (by revert ho; cases o <;> decide) ⟨rfl, rfl, rfl⟩ id rfl rfl fun _ hq => absurd rfl hq

/-- The rows that push a byte: PUSH and CALL. -/
theorem execFrame_push {o : Opcode} (ho : o ∈ [Opcode.push, .call]) (a target : Byte) (byteOf : State → Byte)
    (s : State) :
    ExecFrame o a s ((s.pushByte byteOf).jump target) := by
  refine .of_silent (by revert ho; cases o <;> decide) ⟨rfl, rfl, rfl⟩ (State.pushByte_wf · byteOf) rfl rfl
    fun q hq => .inr ⟨?_, State.eq_of_readReg_writeReg_ne hq⟩
  revert ho; cases o <;> decide

theorem execFrame_pop (d : Fin 8) (v : Byte) (s : State) :
    ExecFrame .pop (regByte d) s ((s.writeReg d v).incSp.advance 2) := by
  refine .of_silent (by decide) ⟨rfl, rfl, rfl⟩ id rfl rfl fun q hq => ?_
  by_cases h7 : q = 7
  · exact .inr ⟨by decide, h7⟩
  · have hspReg : spReg ≠ q := Ne.symm h7
    have hd : q = d := State.eq_of_readReg_writeReg_ne (by simpa [hspReg] using hq)
    exact .inl ⟨by decide, congrArg regByte hd.symm⟩

theorem execFrame_ret (a target : Byte) (s : State) : ExecFrame .ret a s (s.incSp.jump target) :=
  .of_silent (by decide) ⟨rfl, rfl, rfl⟩ id rfl rfl
    fun _ hq => .inr ⟨by decide, State.eq_of_readReg_writeReg_ne hq⟩

theorem execFrame_hlt (a : Byte) (s : State) : ExecFrame .hlt a s s.halt where
  run_state := .inl ⟨rfl, rfl⟩
  memory_canonical := id
  flag_kept := fun _ => rfl
  prn_appends := nofun
  out_kept := fun _ => rfl
  changed_register := fun _ hq => absurd rfl hq

theorem execFrame_cmp (a : Byte) (flag : Bool) (s : State) :
    ExecFrame .cmp a s ((s.setCmpFlag flag).advance 3) where
  run_state := .inr ⟨nofun, rfl, rfl, rfl⟩
  memory_canonical := id
  flag_kept := fun hne => absurd rfl hne
  prn_appends := nofun
  out_kept := fun _ => rfl
  changed_register := fun _ hq => absurd rfl hq

theorem execFrame_prn (r : Fin 8) (s : State) :
    ExecFrame .prn (regByte r) s ((s.emit (s.readReg r)).advance 2) where
  run_state := .inr ⟨nofun, rfl, rfl, rfl⟩
  memory_canonical := id
  flag_kept := fun _ => rfl
  prn_appends := fun _ => ⟨r, rfl, rfl⟩
  out_kept := fun hne => absurd rfl hne
  changed_register := fun _ hq => absurd rfl hq

/-- Every well-formed instruction that is executed keeps its row's frame. -/
theorem exec_frame {o : Opcode} {a b : Byte} {s t : State} (hwf : (o.withOperands a b).wf = true)
    (h : exec (o.withOperands a b) s = .next t) : ExecFrame o a s t := by
  rcases exec_inversion hwf h with ⟨rfl, rfl⟩ | ⟨d, rfl, rfl, rfl⟩ | ⟨r, rfl, rfl, rfl⟩ | ⟨d, r, rfl, rfl, rfl, rfl⟩ |
    ⟨d, r, rfl, rfl, rfl, rfl⟩ | ⟨r, rfl, rfl, rfl⟩ | ⟨d, rfl, rfl, rfl⟩ | ⟨r, rfl, rfl, rfl⟩ | ⟨rfl, rfl⟩ |
    ⟨d, r, rfl, rfl, rfl, rfl⟩ | ⟨r, rfl, rfl, rfl⟩ | ⟨r, rfl, rfl, rfl⟩ | ⟨r, rfl, rfl, rfl⟩
  · exact execFrame_hlt a s
  · exact execFrame_writeReg (by decide) d b s
  · exact execFrame_prn r s
  · exact execFrame_writeReg (by decide) d _ s
  · exact execFrame_writeReg (by decide) d _ s
  · exact execFrame_push (by decide) _ (addrPlus s.pc 2) _ s
  · exact execFrame_pop d _ s
  · exact execFrame_push (by decide) _ _ _ s
  · exact execFrame_ret a _ s
  · exact execFrame_cmp _ _ s
  · exact execFrame_jump (by decide) _ _ s
  · exact execFrame_jump (by decide) _ _ s
  · exact execFrame_jump (by decide) _ _ s

/-- An executed instruction never ends Faulted where it began Running. -/
theorem ExecFrame.not_faulted {o : Opcode} {a : Byte} {s t : State} (h : ExecFrame o a s t)
    (hrun : s.status = .running) : t.status ≠ .faulted := by
  rcases h.run_state with ⟨-, rfl⟩ | ⟨-, hstatus, -, -⟩
  · simp
  · simp [hstatus, hrun]

/-- The two causes for which a step takes a fault at `s`: an illegal opcode, or a register operand of a legal one that
is 8..255 (60_exceptions.md R161, R162). -/
def FaultCause (kind : FaultKind) (byte : Byte) (s : State) : Prop :=
  (kind = .invalidInstruction ∧ byte = s.readMem s.pc ∧ Opcode.ofByte? byte = none) ∨
  (kind = .invalidRegister ∧ 8 ≤ byte.toNat ∧ (Opcode.ofByte? (s.readMem s.pc)).isSome = true ∧
    (byte = s.readMem (addrPlus s.pc 1) ∨ byte = s.readMem (addrPlus s.pc 2)))

/-- A step is none, a fault with its cause, or a row's execution within its frame. -/
theorem step_frame {s t : State} (h : step s = .next t) :
    (s.takesSteps = false ∧ t = s) ∨
    (s.takesSteps = true ∧ ∃ kind byte, FaultCause kind byte s ∧ t = s.takeFault kind byte) ∨
    (s.takesSteps = true ∧ ∃ o : Opcode, s.readMem s.pc = o.byte ∧
      ExecFrame o (s.readMem (addrPlus s.pc 1)) s t) := by
  rcases step_inversion h with hidle | ⟨hsteps, hnone, ht⟩ | ⟨hsteps, o, hbyte, ⟨-, hbad, ht⟩ | ⟨-, hbad, ht⟩ | ⟨hwf, he⟩⟩
  · exact .inl hidle
  · exact .inr (.inl ⟨hsteps, _, _, .inl ⟨rfl, rfl, hnone⟩, ht⟩)
  · exact .inr (.inl ⟨hsteps, _, _, .inr ⟨rfl, isRegister_eq_false.mp hbad, by simp [hbyte], .inl rfl⟩, ht⟩)
  · exact .inr (.inl ⟨hsteps, _, _, .inr ⟨rfl, isRegister_eq_false.mp hbad, by simp [hbyte], .inr rfl⟩, ht⟩)
  · exact .inr (.inr ⟨hsteps, o, hbyte, exec_frame hwf he⟩)

end Sys2Proof.Machine
end

section
/-! The invariant: O45, O46 and O47. -/

namespace Sys2Proof.Machine

/-- A state with no fault record that is Running, or Halted at a HLT, with `rst` released meets the invariant. -/
theorem Inv.of_no_record {s : State} (hmem : s.mem.wf = true) (hfault : s.fault = none) (hstatus : s.status ≠ .faulted)
    (hhalt : s.status = .halted → s.readMem s.pc = 0x01#8) (hrst : s.rst = false) : Inv s where
  memory_canonical := hmem
  record_when_faulted := by simp [hfault, hstatus]
  record_at_pc := by simp [hfault]
  record_cause := by simp [hfault]
  halted_at_hlt := hhalt
  held_in_reset := by simp [hrst]

/-- Over any canonical memory the reset values meet the invariant, held in reset or released. -/
theorem Inv.of_reset_values {m : Memory} (hmem : m.wf = true) (level : Bool) :
    Inv { State.reset with rst := level, mem := m } where
  memory_canonical := hmem
  record_when_faulted := by simp [State.reset, State.resetWith]
  record_at_pc := nofun
  record_cause := nofun
  halted_at_hlt := nofun
  held_in_reset := by rintro rfl; rfl

/-- A block that is Running has no record. -/
theorem Inv.fault_eq_none {s : State} (h : Inv s) (hrun : s.status = .running) : s.fault = none := by
  simpa [hrun] using h.record_when_faulted

/-- Taking a fault whose cause memory shows gives a state that meets the invariant. -/
theorem inv_takeFault {s : State} {kind : FaultKind} {byte : Byte} (hmem : s.mem.wf = true) (hrst : s.rst = false)
    (hcause : FaultCause kind byte s) : Inv (s.takeFault kind byte) where
  memory_canonical := hmem
  record_when_faulted := by simp
  record_at_pc := by rintro r ⟨⟩; rfl
  record_cause := by rintro r ⟨⟩; exact hcause
  halted_at_hlt := nofun
  held_in_reset := fun h => absurd (hrst.symm.trans h) nofun

/-- Executing the instruction at pc keeps the invariant. -/
theorem ExecFrame.inv {o : Opcode} {a : Byte} {s t : State} (h : ExecFrame o a s t) (hinv : Inv s)
    (hrun : s.status = .running) (hrst : s.rst = false) (hbyte : s.readMem s.pc = o.byte) : Inv t := by
  have hmem := h.memory_canonical hinv.memory_canonical
  have hnone := hinv.fault_eq_none hrun
  rcases h.run_state with ⟨rfl, rfl⟩ | ⟨-, hstatus, hfault, hlevel⟩
  · exact .of_no_record hmem hnone nofun (fun _ => hbyte) hrst
  · rw [hrun] at hstatus
    exact .of_no_record hmem (hfault.trans hnone) (by simp [hstatus]) (by simp [hstatus]) (hlevel.trans hrst)

/-- Every step keeps the invariant: a step is none, a fault with its cause, or an execution. -/
theorem step_keeps_inv {s t : State} (hinv : Inv s) (h : step s = .next t) : Inv t := by
  rcases step_frame h with ⟨-, rfl⟩ | ⟨hsteps, kind, byte, hcause, rfl⟩ | ⟨hsteps, o, hbyte, hframe⟩
  · exact hinv
  · exact inv_takeFault hinv.memory_canonical (takesSteps_iff.mp hsteps).2 hcause
  · obtain ⟨hrun, hrst⟩ := takesSteps_iff.mp hsteps
    exact hframe.inv hinv hrun hrst hbyte

/-- Driving `rst` to either level keeps the invariant. -/
theorem driveRst_keeps_inv {s : State} (hinv : Inv s) (level : Bool) : Inv (s.driveRst level) := by
  cases level with
  | true =>
    cases hrst : s.rst with
    | true => simpa [State.driveRst, hrst] using hinv
    | false =>
      simp only [State.driveRst, hrst]
      exact .of_reset_values (m := []) rfl true
  | false => exact { hinv with held_in_reset := nofun }

/-- A write on the load port keeps the invariant: under reset memory alone differs from the reset values. -/
theorem hostWrite_keeps_inv {s : State} (hinv : Inv s) (addr data : Byte) : Inv (s.hostWrite addr data) := by
  have hmem := State.hostWrite_wf hinv.memory_canonical addr data
  cases hrst : s.rst with
  | true =>
    have hheld : s.hostWrite addr data = { State.reset with rst := true, mem := (s.hostWrite addr data).mem } := by
      simp only [State.hostWrite, hrst, if_true, State.writeMem]
      conv_lhs => rw [hinv.held_in_reset hrst]
    rw [hheld]
    exact .of_reset_values hmem true
  | false => simpa [State.hostWrite, hrst] using hinv

/-- Every move answers a next state and keeps the invariant. -/
theorem applyMove_keeps_inv (m : Move) {s : State} (hinv : Inv s) : ∃ t, applyMove m s = .next t ∧ Inv t := by
  cases m with
  | step =>
    obtain ⟨t, ht⟩ := step_answers_next s
    exact ⟨t, ht, step_keeps_inv hinv ht⟩
  | rst level => exact ⟨_, rfl, driveRst_keeps_inv hinv level⟩
  | load addr data => exact ⟨_, rfl, hostWrite_keeps_inv hinv addr data⟩

/-- Settles O46: a step is none, a fault with its cause, or an execution, and each keeps the invariant. -/
theorem everyStepKeepsTheInvariant : Obligations.EveryStepKeepsTheInvariant :=
  fun _ _ => step_keeps_inv

/-- Settles O47, by induction on the moves. -/
theorem everyMoveSequenceKeepsTheInvariant : Obligations.EveryMoveSequenceKeepsTheInvariant := by
  intro moves
  induction moves with
  | nil => exact fun s hinv => ⟨s, rfl, hinv⟩
  | cons m rest ih =>
    intro s hinv
    obtain ⟨u, hu, hinvu⟩ := applyMove_keeps_inv m hinv
    obtain ⟨t, ht, hinvt⟩ := ih u hinvu
    exact ⟨t, by simpa [runMoves, hu] using ht, hinvt⟩

/-- Settles O45: the reset state is the reset values over the empty memory. -/
theorem resetMeetsTheInvariant : Obligations.ResetMeetsTheInvariant :=
  Inv.of_reset_values (m := []) rfl false

end Sys2Proof.Machine
end

section
/-! Who writes and who reads the flag, the output and the registers: O31, O32, O33 and O36. -/

namespace Sys2Proof.Machine

/-- A step that changes what `look` shows was an execution: neither staying nor taking a fault changes the registers,
the flag or the output. -/
theorem step_executes_of_ne {α : Type} {look : State → α} (hlook : ∀ s kind byte, look (s.takeFault kind byte) = look s)
    {s t : State} (h : step s = .next t) (hne : look t ≠ look s) :
    s.takesSteps = true ∧ ∃ o : Opcode, s.readMem s.pc = o.byte ∧ ExecFrame o (s.readMem (addrPlus s.pc 1)) s t := by
  rcases step_frame h with ⟨-, rfl⟩ | ⟨-, kind, byte, -, rfl⟩ | ⟨hsteps, hexec⟩
  · exact absurd rfl hne
  · exact absurd (hlook s kind byte) hne
  · exact ⟨hsteps, hexec⟩

/-! ### The flag -/

/-- A step that changes the flag is a CMP that does not fault. -/
theorem step_flag_changed {s t : State} (h : step s = .next t) (hne : t.cmpFlag ≠ s.cmpFlag) :
    s.readMem s.pc = 0xA7#8 ∧ t.status ≠ .faulted := by
  obtain ⟨hsteps, o, hbyte, hframe⟩ := step_executes_of_ne (look := State.cmpFlag) (fun _ _ _ => rfl) h hne
  have hcmp : o = .cmp := by
    by_contra hno
    exact hne (hframe.flag_kept hno)
  exact ⟨hbyte.trans (congrArg Opcode.byte hcmp), hframe.not_faulted (takesSteps_iff.mp hsteps).1⟩

/-- Executing any row but CMP, JEQ and JNE does the same at another flag value and carries it along. -/
theorem exec_setCmpFlag {o : Opcode} {a b : Byte} {s t : State} (ho : o ∉ [Opcode.jeq, .jne, .cmp])
    (hwf : (o.withOperands a b).wf = true) (h : exec (o.withOperands a b) s = .next t) (flag : Bool) :
    exec (o.withOperands a b) (s.setCmpFlag flag) = .next (t.setCmpFlag flag) := by
  rcases exec_inversion hwf h with ⟨rfl, rfl⟩ | ⟨d, rfl, rfl, rfl⟩ | ⟨r, rfl, rfl, rfl⟩ | ⟨d, r, rfl, rfl, rfl, rfl⟩ |
    ⟨d, r, rfl, rfl, rfl, rfl⟩ | ⟨r, rfl, rfl, rfl⟩ | ⟨d, rfl, rfl, rfl⟩ | ⟨r, rfl, rfl, rfl⟩ | ⟨rfl, rfl⟩ |
    ⟨d, r, rfl, rfl, rfl, rfl⟩ | ⟨r, rfl, rfl, rfl⟩ | ⟨r, rfl, rfl, rfl⟩ | ⟨r, rfl, rfl, rfl⟩
  · exact exec_hlt _
  · exact exec_ldi d b _
  · exact exec_prn r _
  · exact exec_mul d r _
  · exact exec_add d r _
  · exact exec_push r _
  · exact exec_pop d _
  · exact exec_call r _
  · exact exec_ret _
  · exact absurd (by decide) ho
  · exact exec_jmp r _
  · exact absurd (by decide) ho
  · exact absurd (by decide) ho

/-- Executing a well-formed CMP gives the same state whatever the flag was. -/
theorem exec_cmp_setCmpFlag {a b : Byte} (s : State) (hwf : (Instr.cmp a b).wf = true) (flag : Bool) :
    exec (.cmp a b) (s.setCmpFlag flag) = exec (.cmp a b) s := by
  obtain ⟨⟨d, rfl⟩, r, rfl⟩ : (∃ d, a = regByte d) ∧ ∃ r, b = regByte r := by
    simpa [Instr.wf, Instr.registerOperands, isRegister_eq_true] using hwf
  rw [exec_cmp, exec_cmp]
  rfl

/-- At another flag value the step of a Running block executes the same instruction or takes the same fault. -/
theorem step_setCmpFlag_cases {s t : State} (hsteps : s.takesSteps = true) (h : step s = .next t) (flag : Bool) :
    (∃ (o : Opcode) (a b : Byte), s.readMem s.pc = o.byte ∧ (o.withOperands a b).wf = true ∧
      exec (o.withOperands a b) s = .next t ∧
      step (s.setCmpFlag flag) = exec (o.withOperands a b) (s.setCmpFlag flag)) ∨
    (t.status = .faulted ∧ step (s.setCmpFlag flag) = .next (t.setCmpFlag flag)) := by
  obtain ⟨hrun, hrst⟩ := takesSteps_iff.mp hsteps
  have hflagged := step_eq_decode (s := s.setCmpFlag flag) hrun hrst
  simp only [State.readMem_setCmpFlag, State.setCmpFlag_pc] at hflagged
  rw [step_eq_decode hrun hrst] at h
  cases hdec : decode (s.readMem s.pc) (s.readMem (addrPlus s.pc 1)) (s.readMem (addrPlus s.pc 2)) with
  | ok i =>
    rw [hdec] at h hflagged
    obtain ⟨o, hbyte, rfl, hwf⟩ := decode_ok hdec
    exact .inl ⟨o, _, _, hbyte.symm, hwf, h, hflagged⟩
  | illegalOpcode ir =>
    rw [hdec] at h hflagged
    cases h
    exact .inr ⟨rfl, hflagged⟩
  | badRegister b =>
    rw [hdec] at h hflagged
    cases h
    exact .inr ⟨rfl, hflagged⟩

/-- A step of another row than CMP, JEQ and JNE, and every fault, does the same at another flag value and carries it
along. -/
theorem step_setCmpFlag {s t : State} (h : step s = .next t) (hop : s.readMem s.pc ∉ [0x55#8, 0x56#8, 0xA7#8])
    (flag : Bool) : step (s.setCmpFlag flag) = .next (t.setCmpFlag flag) := by
  cases hsteps : s.takesSteps with
  | false =>
    rw [step_idle hsteps] at h
    cases h
    exact step_idle hsteps
  | true =>
    rcases step_setCmpFlag_cases hsteps h flag with ⟨o, a, b, hbyte, hwf, hexec, hflagged⟩ | ⟨-, hflagged⟩
    · have ho : o ∉ [Opcode.jeq, .jne, .cmp] := fun hmem => hop (hbyte ▸ List.mem_map_of_mem hmem)
      exact hflagged.trans (exec_setCmpFlag ho hwf hexec flag)
    · exact hflagged

/-- A CMP that does not fault gives the same state whatever the flag was. -/
theorem step_cmp_setCmpFlag {s t : State} (hrun : s.status = .running) (hrst : s.rst = false) (h : step s = .next t)
    (hok : t.status ≠ .faulted) (hop : s.readMem s.pc = 0xA7#8) (flag : Bool) :
    step (s.setCmpFlag flag) = .next t := by
  rcases step_setCmpFlag_cases (takesSteps_iff.mpr ⟨hrun, hrst⟩) h flag with
    ⟨o, a, b, hbyte, hwf, hexec, hflagged⟩ | ⟨hfaulted, -⟩
  · obtain rfl : o = .cmp := Opcode.byte_inj.mp (hbyte.symm.trans hop)
    exact (hflagged.trans (exec_cmp_setCmpFlag s hwf flag)).trans hexec
  · exact absurd hfaulted hok

/-- Settles O31: CMP alone writes the flag, and a step reads it in JEQ and JNE alone. -/
theorem flagIsCmpsToWriteAndBranchesToRead : Obligations.FlagIsCmpsToWriteAndBranchesToRead := by
  refine ⟨rfl, fun d r s => ⟨_, exec_cmp d r s, rfl⟩, fun s t h hop => ?_, fun s t h hfaulted => ?_,
    fun s t flag h hop => step_setCmpFlag h hop flag,
    fun s t flag hrun hrst h hok hop => step_cmp_setCmpFlag hrun hrst h hok hop flag⟩
  · by_contra hne
    exact hop (step_flag_changed h hne).1
  · by_contra hne
    exact (step_flag_changed h hne).2 hfaulted

/-! ### The output -/

/-- A step that changes the output is a PRN that a Running block executes. -/
theorem step_out_changed {s t : State} (h : step s = .next t) (hne : t.out ≠ s.out) :
    s.takesSteps = true ∧ s.readMem s.pc = 0x47#8 ∧ t.status ≠ .faulted := by
  obtain ⟨hsteps, o, hbyte, hframe⟩ := step_executes_of_ne (look := State.out) (fun _ _ _ => rfl) h hne
  have hprn : o = .prn := by
    by_contra hno
    exact hne (hframe.out_kept hno)
  exact ⟨hsteps, hbyte.trans (congrArg Opcode.byte hprn), hframe.not_faulted (takesSteps_iff.mp hsteps).1⟩

/-- The step of a Running block at a PRN appends its register's byte unless it faults. -/
theorem step_prn_appends {s t : State} (hsteps : s.takesSteps = true) (h : step s = .next t)
    (hop : s.readMem s.pc = 0x47#8) (hok : t.status ≠ .faulted) :
    ∃ r : Fin 8, s.readMem (addrPlus s.pc 1) = regByte r ∧ t.out = s.out ++ [s.readReg r] := by
  rcases step_frame h with ⟨hidle, -⟩ | ⟨-, kind, byte, -, rfl⟩ | ⟨-, o, hbyte, hframe⟩
  · simp [hsteps] at hidle
  · exact absurd (State.takeFault_status s kind byte) hok
  · exact hframe.prn_appends (Opcode.byte_inj.mp (hbyte.symm.trans hop))

/-- Settles O32: an executed PRN appends its register's byte, and no other step changes the output. -/
theorem outputIsAppendedByPrnOnly : Obligations.OutputIsAppendedByPrnOnly := by
  refine ⟨rfl, fun s t h => ⟨fun hrun hrst hop hok => ?_, fun hother => ?_⟩⟩
  · rw [← addrPlus_eq_add s.pc 1]
    exact step_prn_appends (takesSteps_iff.mpr ⟨hrun, hrst⟩) h hop hok
  · by_contra hne
    obtain ⟨hsteps, hop, hok⟩ := step_out_changed h hne
    obtain ⟨hrun, hrst⟩ := takesSteps_iff.mp hsteps
    simp [hrun, hrst, hop, hok] at hother

/-! ### The registers -/

/-- Settles O33: the table's column is a clause of every executed row's frame, and no other step changes a register. -/
theorem registersChangeOnlyAsTheTableSays : Obligations.RegistersChangeOnlyAsTheTableSays := by
  intro s t q h hne
  obtain ⟨-, o, hbyte, hframe⟩ := step_executes_of_ne (look := (State.readReg · q)) (fun _ _ _ => rfl) h hne
  rw [hbyte, ← addrPlus_eq_add s.pc 1]
  exact (hframe.changed_register q hne).imp (And.imp_left List.mem_map_of_mem) (And.imp_left List.mem_map_of_mem)

/-- Settles O36: a register read after a register write. -/
theorem registersReadBackTheLastWrite : Obligations.RegistersReadBackTheLastWrite := by
  refine fun s r v => ⟨by simp, fun q hq => ?_, rfl⟩
  have hne : r ≠ q := by rintro rfl; simp at hq
  simp [hne]

end Sys2Proof.Machine
end

section
/-! Steps and runs that meet no fault: O48 and O49. -/

namespace Sys2Proof.Machine

/-- The step of a Running block ends Faulted unless the decoder accepts the fetched bytes. -/
theorem step_not_faulted_iff_decodes {s t : State} (hrun : s.status = .running) (hrst : s.rst = false)
    (h : step s = .next t) :
    t.status ≠ .faulted ↔ ∃ i : Instr,
      decode (s.readMem s.pc) (s.readMem (addrPlus s.pc 1)) (s.readMem (addrPlus s.pc 2)) = .ok i := by
  rw [step_eq_decode hrun hrst] at h
  cases hdec : decode (s.readMem s.pc) (s.readMem (addrPlus s.pc 1)) (s.readMem (addrPlus s.pc 2)) with
  | ok i =>
    rw [hdec] at h
    obtain ⟨o, -, rfl, hwf⟩ := decode_ok hdec
    exact iff_of_true ((exec_frame hwf h).not_faulted hrun) ⟨_, rfl⟩
  | illegalOpcode ir =>
    rw [hdec] at h
    cases h
    simp
  | badRegister b =>
    rw [hdec] at h
    cases h
    simp

/-- The step of a Running block ends Faulted unless a well-formed instruction's own bytes stand at pc. -/
theorem step_not_faulted_iff_placed {s t : State} (hrun : s.status = .running) (hrst : s.rst = false)
    (h : step s = .next t) : t.status ≠ .faulted ↔ ∃ i : Instr, i.wf = true ∧ Placed i s := by
  simp only [step_not_faulted_iff_decodes hrun hrst h, decode_eq_ok_iff_placed hrun hrst]

/-- Settles O48: the decoder accepts the fetched bytes exactly when they begin with a well-formed instruction's own. -/
theorem runningStepFaultsExactlyWhenNoInstructionIsFetched :
    Obligations.RunningStepFaultsExactlyWhenNoInstructionIsFetched := by
  intro s hrun hrst
  obtain ⟨t, h⟩ := step_answers_next s
  exact ⟨t, h, step_not_faulted_iff_decodes hrun hrst h, step_not_faulted_iff_placed hrun hrst h⟩

/-- A safe run, however long, does not begin Faulted. -/
theorem safeRun_not_faulted {k : Nat} {s : State} (h : safeRun k s = true) : s.status ≠ .faulted := by
  cases k with
  | zero => simpa [safeRun] using h
  | succ k =>
    simp only [safeRun, Bool.and_eq_true, bne_iff_ne] at h
    exact h.1

/-- A safe run of `k + 1` steps is a state that is not Faulted and a safe run of `k` steps from the next one. -/
theorem safeRun_succ {k : Nat} {s t : State} (h : step s = .next t) :
    safeRun (k + 1) s = true ↔ s.status ≠ .faulted ∧ safeRun k t = true := by
  simp [safeRun, h]

/-- Settles O49: the first step of a safe run ends in a state that is not Faulted, so an instruction stands at pc. -/
theorem safeRunsExecuteWellFormedInstructions : Obligations.SafeRunsExecuteWellFormedInstructions := by
  intro k s hrun hrst
  constructor
  · intro hsafe
    obtain ⟨t, h⟩ := step_answers_next s
    have hrest := ((safeRun_succ h).mp hsafe).2
    obtain ⟨i, hwf, hplaced⟩ := (step_not_faulted_iff_placed hrun hrst h).mp (safeRun_not_faulted hrest)
    exact ⟨i, t, hwf, hplaced, (step_of_placed hwf hplaced).symm.trans h, hrest⟩
  · rintro ⟨i, t, hwf, hplaced, hexec, hrest⟩
    exact (safeRun_succ ((step_of_placed hwf hplaced).trans hexec)).mpr ⟨by simp [hrun], hrest⟩

end Sys2Proof.Machine
end

section
/-! The host's ports: O42, O43 and O44. -/

namespace Sys2Proof.Machine

/-! ### The load port -/

theorem State.hostWrite_released {s : State} (hrst : s.rst = false) (addr data : Byte) : s.hostWrite addr data = s := by
  simp [State.hostWrite, hrst]

theorem State.hostWrite_held {s : State} (hrst : s.rst = true) (addr data : Byte) :
    s.hostWrite addr data = s.writeMem addr data := by
  simp [State.hostWrite, hrst]

@[simp] theorem State.hostWrite_rst (s : State) (addr data : Byte) : (s.hostWrite addr data).rst = s.rst := by
  unfold State.hostWrite; split <;> rfl

/-- The load port writes memory and nothing else. -/
theorem State.hostWrite_eq (s : State) (addr data : Byte) :
    s.hostWrite addr data = { s with mem := (s.hostWrite addr data).mem } := by
  unfold State.hostWrite; split <;> rfl

/-- Loading an image changes memory and nothing else. -/
theorem State.loadImage_eq (s : State) (addr : Byte) (image : List Byte) :
    s.loadImage addr image = { s with mem := (s.loadImage addr image).mem } := by
  induction image generalizing s addr with
  | nil => rfl
  | cons v rest ih =>
    exact (ih (s.hostWrite addr v) (addrPlus addr 1)).trans
      (congrArg (fun u : State => { u with mem := (s.loadImage addr (v :: rest)).mem }) (s.hostWrite_eq addr v))

/-- What an image loaded from address `n` leaves in memory, where it ends inside the address space. -/
theorem State.readMem_loadImage {s : State} (hrst : s.rst = true) (hmem : s.mem.wf = true) (image : List Byte) (n : Nat)
    (hfits : n + image.length ≤ 256) (addr : Byte) :
    (s.loadImage (BitVec.ofNat 8 n) image).readMem addr =
      if n ≤ addr.toNat ∧ addr.toNat < n + image.length then image.getD (addr.toNat - n) 0x00#8
      else s.readMem addr := by
  induction image generalizing s n with
  | nil => exact (if_neg (by simp)).symm
  | cons v rest ih =>
    rw [List.length_cons] at hfits ⊢
    have hnext : addrPlus (BitVec.ofNat 8 n) 1 = BitVec.ofNat 8 (n + 1) := by
      simp [addrPlus_eq_add, BitVec.ofNat_add]
    have hhere : addr = BitVec.ofNat 8 n ↔ addr.toNat = n := by
      rw [← BitVec.toNat_inj, BitVec.toNat_ofNat, Nat.mod_eq_of_lt (by omega)]
    rw [State.loadImage, hnext, ih (by simpa using hrst) (State.hostWrite_wf hmem _ v) (n + 1) (by omega),
      State.hostWrite_held hrst]
    by_cases haddr : addr.toNat = n
    · rw [if_neg (by omega), if_pos (by omega), hhere.mpr haddr, State.readMem_writeMem_same hmem, ← hhere.mpr haddr,
        haddr, Nat.sub_self, List.getD_cons_zero]
    · rw [State.readMem_writeMem_other s v (mt hhere.mp haddr)]
      by_cases hin : n + 1 ≤ addr.toNat ∧ addr.toNat < n + 1 + rest.length
      · rw [if_pos hin, if_pos (by omega), show addr.toNat - n = addr.toNat - (n + 1) + 1 by omega, List.getD_cons_succ]
      · rw [if_neg hin, if_neg (by omega)]

/-- Settles O43: a write under reset is a memory write, and the image's bytes are written at rising addresses. -/
theorem loadPortWritesOnlyUnderReset : Obligations.LoadPortWritesOnlyUnderReset := by
  refine ⟨fun s addr data hrst => State.hostWrite_released hrst addr data, fun s addr data hrst hmem => ?_,
    fun s image addr hrst hmem hfits => ?_⟩
  · rw [State.hostWrite_held hrst]
    exact ⟨State.readMem_writeMem_same hmem addr data, fun other hne => State.readMem_writeMem_other s data hne, rfl⟩
  · simpa using State.readMem_loadImage hrst hmem image 0 (by omega) addr

/-! ### Boot -/

/-- Booting an image that fits is loading it over the reset values under reset and then releasing reset. -/
theorem State.bootImage_eq_some {s : State} (hrst : s.rst = false) {image : List Byte} (hfits : image.length ≤ 256) :
    s.bootImage image =
      some { State.reset with mem := ({ State.reset with rst := true }.loadImage 0x00#8 image).mem } := by
  have hassert : s.driveRst true = { State.reset with rst := true } := by simp [State.driveRst, hrst]
  rw [State.bootImage, if_pos hfits, hassert, State.loadImage_eq]
  rfl

/-- A booted block reads its image from address 0 on and 0x00 past its end. -/
theorem readMem_booted {image : List Byte} (hfits : image.length ≤ 256) (addr : Byte) :
    ({ State.reset with rst := true }.loadImage 0x00#8 image).readMem addr = image.getD addr.toNat 0x00#8 := by
  have hload := State.readMem_loadImage (s := { State.reset with rst := true }) rfl rfl image 0 (by omega) addr
  rw [hload]
  split
  · rfl
  · rw [List.getD_eq_default _ _ (by omega)]
    rfl

/-- Settles O42: only memory of a booted block differs from the reset state, and it holds the image. -/
theorem bootLeavesResetValuesAndTheImage : Obligations.BootLeavesResetValuesAndTheImage := by
  have hregs : ∀ r : Fin 8, r ≠ 7 → State.reset.readReg r = 0x00#8 := by decide
  refine fun s image hrst => ⟨fun hfits => ⟨_, State.bootImage_eq_some hrst hfits, hregs, rfl, rfl, rfl,
    readMem_booted hfits, rfl, rfl, rfl, rfl, readMem_booted hfits 0x00#8⟩, fun hlong => ?_⟩
  exact if_neg (Nat.not_le.mpr hlong)

/-! ### Status and fault ports -/

/-- Settles O44, by cases on the status. -/
theorem portsShowStatusAndFaultRecord : Obligations.PortsShowStatusAndFaultRecord := by
  refine ⟨fun s => ?_, fun s f kind byte pc hstatus hfault => ?_, fun s kind byte pc hstatus => ?_, rfl, rfl, rfl, rfl,
    rfl⟩
  · cases hstatus : s.status <;> simp [statusPort, hstatus, statusCode]
  · simp [faultPortsMayShow, hstatus, hfault, recordCode, and_assoc]
  · cases hs : s.status with
    | running => simp [faultPortsMayShow, hs]
    | halted => simp [faultPortsMayShow, hs]
    | faulted => exact absurd hs hstatus

end Sys2Proof.Machine
end

section
/-! Memory: what a write sets, which bytes a step may change and which it reads, and where its addresses wrap: O34, O35,
O37, O39 and O40. -/

namespace Sys2Proof.Machine

/-! ### Writes -/

/-- Settles O37: a read after a write to the same and to another address. -/
theorem memoryReadsTheLatestWrite : Obligations.MemoryReadsTheLatestWrite :=
  fun s addr v hmem =>
    ⟨State.readMem_writeMem_same hmem addr v, fun _ hne => State.readMem_writeMem_other s v hne, rfl⟩

/-- A byte that a push changed is the one at the decremented SP. -/
theorem State.eq_of_readMem_pushByte_ne {s : State} {byteOf : State → Byte} {addr : Byte}
    (h : (s.pushByte byteOf).readMem addr ≠ s.readMem addr) : addr = s.readReg 7 - 1#8 := by
  by_contra hne
  exact h (State.readMem_pushByte_other s byteOf (by rwa [State.sp_decSp]))

/-- The writes column of 20_memory.md R57: of the executed rows PUSH and CALL alone change memory, at SP - 1 alone. -/
theorem exec_readMem_changed {o : Opcode} {a b addr : Byte} {s t : State} (hwf : (o.withOperands a b).wf = true)
    (h : exec (o.withOperands a b) s = .next t) (hne : t.readMem addr ≠ s.readMem addr) :
    o ∈ [Opcode.push, .call] ∧ addr = s.readReg 7 - 1#8 := by
  rcases exec_inversion hwf h with ⟨rfl, rfl⟩ | ⟨d, rfl, rfl, rfl⟩ | ⟨r, rfl, rfl, rfl⟩ | ⟨d, r, rfl, rfl, rfl, rfl⟩ |
    ⟨d, r, rfl, rfl, rfl, rfl⟩ | ⟨r, rfl, rfl, rfl⟩ | ⟨d, rfl, rfl, rfl⟩ | ⟨r, rfl, rfl, rfl⟩ | ⟨rfl, rfl⟩ |
    ⟨d, r, rfl, rfl, rfl, rfl⟩ | ⟨r, rfl, rfl, rfl⟩ | ⟨r, rfl, rfl, rfl⟩ | ⟨r, rfl, rfl, rfl⟩
  -- Every row but PUSH and CALL leaves memory as it was.
  any_goals exact absurd rfl hne
  · rw [State.readMem_advance] at hne
    exact ⟨by decide, State.eq_of_readMem_pushByte_ne hne⟩
  · rw [State.readMem_jump] at hne
    exact ⟨by decide, State.eq_of_readMem_pushByte_ne hne⟩

/-- Settles O34: a step that changes memory is neither idle nor a fault, so it executes a row that changes memory. -/
theorem memoryChangesOnlyByPushAndCall : Obligations.MemoryChangesOnlyByPushAndCall := by
  intro s t addr h hne
  rcases step_inversion h with ⟨-, rfl⟩ | ⟨-, -, rfl⟩ | ⟨-, o, hbyte, ⟨-, -, rfl⟩ | ⟨-, -, rfl⟩ | ⟨hwf, hexec⟩⟩
  any_goals exact absurd rfl hne
  rw [hbyte]
  exact (exec_readMem_changed hwf hexec hne).imp_left List.mem_map_of_mem

/-! ### Reads -/

/-- The reads column of 20_memory.md R57: over another memory, which for POP and RET has the same byte at SP, an executed
row gives a state that differs in memory only. -/
theorem exec_other_memory {o : Opcode} {a b : Byte} {s t : State} {other : Memory}
    (hwf : (o.withOperands a b).wf = true) (h : exec (o.withOperands a b) s = .next t)
    (hsp : o ∈ [Opcode.pop, .ret] → { s with mem := other }.readMem s.sp = s.readMem s.sp) :
    ∃ u, exec (o.withOperands a b) { s with mem := other } = .next u ∧ u = { t with mem := u.mem } := by
  rcases exec_inversion hwf h with ⟨rfl, rfl⟩ | ⟨d, rfl, rfl, rfl⟩ | ⟨r, rfl, rfl, rfl⟩ | ⟨d, r, rfl, rfl, rfl, rfl⟩ |
    ⟨d, r, rfl, rfl, rfl, rfl⟩ | ⟨r, rfl, rfl, rfl⟩ | ⟨d, rfl, rfl, rfl⟩ | ⟨r, rfl, rfl, rfl⟩ | ⟨rfl, rfl⟩ |
    ⟨d, r, rfl, rfl, rfl, rfl⟩ | ⟨r, rfl, rfl, rfl⟩ | ⟨r, rfl, rfl, rfl⟩ | ⟨r, rfl, rfl, rfl⟩
  · exact ⟨_, exec_hlt _, rfl⟩
  · exact ⟨_, exec_ldi d b _, rfl⟩
  · exact ⟨_, exec_prn r _, rfl⟩
  · exact ⟨_, exec_mul d r _, rfl⟩
  · exact ⟨_, exec_add d r _, rfl⟩
  · exact ⟨_, exec_push r _, rfl⟩
  · refine ⟨_, exec_pop d _, ?_⟩
    rw [← hsp (by decide)]
    rfl
  · exact ⟨_, exec_call r _, rfl⟩
  · refine ⟨_, exec_ret _, ?_⟩
    rw [← hsp (by decide)]
    rfl
  · exact ⟨_, exec_cmp d r _, rfl⟩
  · exact ⟨_, exec_jmp r _, rfl⟩
  · exact ⟨_, (exec_jeq r _).trans (congrArg _ (branchWhen_eq _ _ _)), rfl⟩
  · exact ⟨_, (exec_jne r _).trans (congrArg _ (branchWhen_eq _ _ _)), rfl⟩

/-- The fetch is the same from another memory with the same bytes at pc, pc + 1 and pc + 2 (40_execution_loop.md R101). -/
theorem fetch_other_memory {s : State} {other : Memory}
    (hfetch : ∀ k, k < 3 → { s with mem := other }.readMem (addrPlus s.pc k) = s.readMem (addrPlus s.pc k)) :
    fetch { s with mem := other } = fetch s := by
  have hir := hfetch 0 (by omega)
  rw [addrPlus_zero] at hir
  simp [fetch, hir, hfetch]

/-- Settles O35: agreeing memories give the same fetch, so the same fault or the same row's execution. -/
theorem stepReadsOnlyFetchAndStackBytes : Obligations.StepReadsOnlyFetchAndStackBytes := by
  intro s t other h hfetch hsp
  cases hsteps : s.takesSteps with
  | false =>
    rw [step_idle hsteps] at h
    cases h
    exact ⟨_, step_idle hsteps, rfl⟩
  | true =>
    obtain ⟨hrun, hrst⟩ := takesSteps_iff.mp hsteps
    rw [step_running hrun hrst] at h
    rw [step_running (s := { s with mem := other }) hrun hrst, fetch_other_memory hfetch]
    unfold runFetched at h ⊢
    cases hdec : decode (fetch s).ir (fetch s).a (fetch s).b with
    | ok i =>
      rw [hdec] at h
      obtain ⟨o, hbyte, rfl, hwf⟩ := decode_ok hdec
      have hop : s.readMem s.pc = o.byte := hbyte.symm
      exact exec_other_memory hwf h fun ho => hsp (hop ▸ List.mem_map_of_mem ho)
    | illegalOpcode ir =>
      rw [hdec] at h
      cases h
      exact ⟨_, rfl, rfl⟩
    | badRegister b =>
      rw [hdec] at h
      cases h
      exact ⟨_, rfl, rfl⟩

/-! ### Stores and the next fetch -/

/-- The byte a push stores is the byte read at SP - 1 afterwards. -/
theorem State.readMem_pushByte_sp {s : State} (hmem : s.mem.wf = true) (byteOf : State → Byte) :
    (s.pushByte byteOf).readMem (s.readReg 7 - 1#8) = byteOf s.decSp := by
  have hstored := State.readMem_pushByte_same hmem byteOf
  rwa [State.sp_decSp] at hstored

/-- Settles O39: a placed instruction's step is its execution, which leaves the byte pushed at SP - 1. -/
theorem storesAreSeenByTheNextFetch : Obligations.StoresAreSeenByTheNextFetch := by
  rintro s r i hmem (rfl | rfl) hplaced
  · have hexec := exec_push r s
    refine ⟨_, (step_of_placed (by simp [Instr.wf, Instr.registerOperands]) hplaced).trans hexec, hexec, fun k hk => ?_⟩
    rw [hk, State.readMem_advance, State.readMem_pushByte_sp hmem, State.readReg_decSp]
    simp [spReg, State.sp, eq_comm]
  · have hexec := exec_call r s
    refine ⟨_, (step_of_placed (by simp [Instr.wf, Instr.registerOperands]) hplaced).trans hexec, hexec, fun k hk => ?_⟩
    rw [hk, State.readMem_jump, State.readMem_pushByte_sp hmem, State.decSp_pc, if_pos rfl]

/-! ### Addresses -/

/-- Settles O40: each address is a byte computed by one addition or subtraction. -/
theorem addressesWrapModulo256 : Obligations.AddressesWrapModulo256 := by
  refine fun s n => ⟨congrArg s.mem.read (addrPlus_toNat s.pc 1), congrArg s.mem.read (addrPlus_toNat s.pc 2),
    addrPlus_toNat s.pc n, ?_, ?_⟩
  · calc (s.decSp.readReg 7).toNat = (s.readReg 7 - 1#8).toNat := congrArg BitVec.toNat (State.sp_decSp s)
      _ = ((s.readReg 7).toNat + 255) % 256 := by rw [BitVec.toNat_sub, Nat.add_comm]; rfl
  · calc (s.incSp.readReg 7).toNat = (s.readReg 7 + 1#8).toNat := congrArg BitVec.toNat (State.sp_incSp s)
      _ = ((s.readReg 7).toNat + 1) % 256 := BitVec.toNat_add ..

end Sys2Proof.Machine
end

section
/-! Encoding and decoding: the round trips, the illegal opcodes, the bit pattern of the 13 opcodes, and the machine that
the decoder's control signals drive: O1 to O6 and O12. -/

namespace Sys2Proof

/-! ### From an instruction to its bytes and back -/

/-- Bytes that begin with an instruction's encoding begin with its opcode byte, and its row makes it of the two bytes
after that one: a row drops the bytes it does not have (30_encoding.md R70, R74 to R76). -/
theorem of_encode_prefix {i : Instr} {bytes : List Byte} (h : encode i <+: bytes) :
    bytes.getD 0 0#8 = i.opcode.byte ∧ i.opcode.withOperands (bytes.getD 1 0#8) (bytes.getD 2 0#8) = i := by
  obtain ⟨following, rfl⟩ := h
  exact ⟨rfl, by cases i <;> rfl⟩

/-- Settles O2: the row and the operands of the instruction are read back from its bytes. -/
theorem decodeOfEncodeIsTheInstruction : Obligations.DecodeOfEncodeIsTheInstruction := by
  intro i following hwf
  obtain ⟨hir, hoperands⟩ := of_encode_prefix (List.prefix_append (encode i) following)
  rw [← hoperands] at hwf
  rw [decodeBytes, hir, decode_withOperands hwf, hoperands]

/-- Settles O4: both encodings begin the same bytes, so they have the same row and the same operands. -/
theorem encodingsArePrefixFree : Obligations.EncodingsArePrefixFree := by
  intro i j following hprefix
  obtain ⟨hiByte, hi⟩ := of_encode_prefix hprefix
  obtain ⟨hjByte, hj⟩ := of_encode_prefix (List.prefix_append (encode j) following)
  have hrow : i.opcode = j.opcode := Opcode.byte_inj.mp (hiByte.symm.trans hjByte)
  rw [← hi, hrow, hj]

/-- An instruction is 1 to 3 bytes long (30_encoding.md R71). -/
theorem Opcode.length_bounds (o : Opcode) : 1 ≤ o.length ∧ o.length ≤ 3 := by cases o <;> decide

/-- Settles O3: an accepted word is a row with its operands, whose encoding begins the word. -/
theorem encodeOfDecodeIsTheWord : Obligations.EncodeOfDecodeIsTheWord := by
  intro ir a b i hdec
  obtain ⟨o, rfl, rfl, hwf⟩ := Machine.decode_ok hdec
  rw [Opcode.withOperands_opcode]
  exact ⟨hwf, encode_withOperands o a b, o.length_bounds⟩

/-! ### Illegal opcodes -/

/-- The decoder answers illegal opcode exactly for the bytes of no row. -/
theorem decode_eq_illegalOpcode_iff {ir a b : Byte} :
    decode ir a b = .illegalOpcode ir ↔ ∀ o : Opcode, o.byte ≠ ir := by
  rw [← Opcode.ofByte?_eq_none]
  rcases decode_cases ir a b with ⟨hnone, hdec⟩ | ⟨o, rfl, ⟨-, -, hdec⟩ | ⟨-, -, -, hdec⟩ | ⟨-, -, hdec⟩⟩
  · exact iff_of_true hdec hnone
  all_goals exact iff_of_false (by simp [hdec]) (by simp)

/-- A list of the table's opcode bytes, in any order, leaves out exactly the bytes of no row. -/
theorem Opcode.not_mem_iff_of_perm {legal : List Byte} (hperm : legal.Perm (Opcode.all.map Opcode.byte)) {ir : Byte} :
    ir ∉ legal ↔ ∀ o : Opcode, o.byte ≠ ir := by
  simp [hperm.mem_iff, Opcode.mem_all]

/-- A list of distinct bytes and the bytes outside it are together all 256. -/
theorem length_filter_not_mem_add_length {listed : List Byte} (hnodup : listed.Nodup) :
    ((List.range 256).filter fun n => BitVec.ofNat 8 n ∉ listed).length + listed.length = 256 := by
  have hlisted : ((List.range 256).filter fun n => BitVec.ofNat 8 n ∈ listed).Perm (listed.map BitVec.toNat) := by
    rw [List.perm_ext_iff_of_nodup (List.nodup_range.filter _) (hnodup.map BitVec.toNat_injective)]
    intro n
    simp only [List.mem_filter, List.mem_range, decide_eq_true_eq, List.mem_map]
    constructor
    · rintro ⟨hn, hmem⟩
      exact ⟨_, hmem, Nat.mod_eq_of_lt hn⟩
    · rintro ⟨v, hmem, rfl⟩
      exact ⟨v.isLt, by simpa using hmem⟩
  have hsplit := List.length_eq_length_filter_add (l := List.range 256) fun n => decide (BitVec.ofNat 8 n ∈ listed)
  rw [hlisted.length_eq, List.length_map, List.length_range] at hsplit
  simp only [decide_not]
  omega

end Sys2Proof

namespace Sys2Proof.Machine

/-- A Running block that fetches the byte of no row takes InvalidInstruction (60_exceptions.md R161). -/
theorem step_illegal {s : State} (hrun : s.status = .running) (hrst : s.rst = false)
    (hir : ∀ o : Opcode, o.byte ≠ s.readMem s.pc) :
    step s = .next (s.takeFault .invalidInstruction (s.readMem s.pc)) := by
  rw [step_eq_decode hrun hrst, decode_eq_illegalOpcode_iff.mpr hir]

/-- Settles O5: the listed bytes are the table's, so the others are the bytes of no row. -/
theorem illegalOpcodesAreTheOther243 : Obligations.IllegalOpcodesAreTheOther243 := by
  unfold Obligations.IllegalOpcodesAreTheOther243
  intro legal
  have hperm : legal.Perm (Opcode.all.map Opcode.byte) := by decide
  refine ⟨fun ir a b => ?_, ?_, fun s hrun hrst hir => ⟨_, ?_, takeFault_faultTaken s _ _⟩⟩
  · rw [decode_eq_illegalOpcode_iff, Opcode.not_mem_iff_of_perm hperm]
  · exact Nat.add_right_cancel (m := 13) (length_filter_not_mem_add_length (by decide))
  · exact step_illegal hrun hrst ((Opcode.not_mem_iff_of_perm hperm).mp hir)

/-! ### The datapath -/

@[simp] theorem regPort_regByte (r : Fin 8) : regPort (regByte r) = r := by simp [regPort]

/-- The pc_mux under the `pcsel` signal of a conditional jump: the register's value or the sequential next pc. -/
theorem pcMux_regWhenFlag (value flag : Bool) (p : Byte) (len : Nat) (target popped : Byte) :
    pcMux (pcSelect (.regWhenFlag value) flag) p len target popped = if flag = value then target else addrPlus p len := by
  by_cases h : flag = value
  · simp only [pcSelect, if_pos h, pcMux]
  · simp only [pcSelect, if_neg h, pcMux]

/-- The control signals of a row drive the datapath to what the row's instruction does (30_encoding.md R73). -/
theorem driveSignals_control {o : Opcode} {ir a b : Byte} (hwf : (o.withOperands a b).wf = true) (s : State) :
    driveSignals o.control ⟨ir, a, b⟩ s = exec (o.withOperands a b) s := by
  obtain ⟨t, h⟩ := exec_answers_next (o.withOperands a b) s
  rw [h]
  rcases exec_inversion hwf h with ⟨rfl, rfl⟩ | ⟨d, rfl, rfl, rfl⟩ | ⟨r, rfl, rfl, rfl⟩ | ⟨d, r, rfl, rfl, rfl, rfl⟩ |
    ⟨d, r, rfl, rfl, rfl, rfl⟩ | ⟨r, rfl, rfl, rfl⟩ | ⟨d, rfl, rfl, rfl⟩ | ⟨r, rfl, rfl, rfl⟩ | ⟨rfl, rfl⟩ |
    ⟨d, r, rfl, rfl, rfl, rfl⟩ | ⟨r, rfl, rfl, rfl⟩ | ⟨r, rfl, rfl, rfl⟩ | ⟨r, rfl, rfl, rfl⟩
  -- The signals' values are the row's, and the checked operand bytes select the registers they name.
  all_goals simp only [driveSignals, Opcode.control, writeBackBus, stackPush, stackPop, latchStage, regPort_regByte,
    aluResult, pcMux_regWhenFlag]
  all_goals rfl

/-- Settles O12: the checks of both machines are the decoder's, and past them the signals do what the instruction does. -/
theorem controlSignalsImplementTheInstructions : Obligations.ControlSignalsImplementTheInstructions := by
  intro s
  unfold datapathStep step runFetched
  cases s.takesSteps with
  | false => rfl
  | true =>
    rcases decode_cases (fetch s).ir (fetch s).a (fetch s).b with
      ⟨hnone, hdec⟩ | ⟨o, hir, ⟨hra, hbad, hdec⟩ | ⟨ha, hrb, hbad, hdec⟩ | ⟨ha, hb, hdec⟩⟩
    · simp [hnone, hdec]
    · simp [hdec, Opcode.ofByte?_eq_some.mpr hir, hra, hbad]
    · simp [hdec, Opcode.ofByte?_eq_some.mpr hir, ha, hrb, hbad]
    · obtain ⟨_, _, _, hwf⟩ := decode_ok hdec
      have hdrive : driveSignals o.control (fetch s) s = exec (o.withOperands (fetch s).a (fetch s).b) s :=
        driveSignals_control hwf s
      simp [hdec, Opcode.ofByte?_eq_some.mpr hir, ha, hb, hdrive]

end Sys2Proof.Machine

namespace Sys2Proof

/-- Settles O6, by cases on the row. -/
theorem opcodeBitsShareAPattern : Obligations.OpcodeBitsShareAPattern := by
  refine ⟨fun ir a b hir => decode_eq_illegalOpcode_iff.mpr hir, fun o => ?_⟩
  cases o <;> decide

/-- Settles O1, by evaluating the decoder on the nine words. -/
theorem decodesWordsOfTheTable : Obligations.DecodesWordsOfTheTable := by
  unfold Obligations.DecodesWordsOfTheTable
  decide

end Sys2Proof
end

section
/-! The execution loop: a step as its checks and its execution, how it ends, and its next pc; and the ALU's results under
both readings: O7, O8, O9, O11 and O16. -/

namespace Sys2Proof

/-- A row's byte is among some rows' bytes exactly when the row is among them. -/
theorem Opcode.byte_mem_map {o : Opcode} {rows : List Opcode} : o.byte ∈ rows.map Opcode.byte ↔ o ∈ rows :=
  List.mem_map_of_injective fun _ _ => Opcode.byte_inj.mp

/-- HLT and RET alone have no operand_a to check (30_encoding.md R74, R76). -/
theorem Opcode.control_ra_iff (o : Opcode) : o.control.ra = true ↔ o ∉ [Opcode.hlt, .ret] := by cases o <;> decide

/-- ADD, MUL and CMP alone have an operand_b to check (30_encoding.md R75). -/
theorem Opcode.control_rb_iff (o : Opcode) : o.control.rb = true ↔ o ∈ [Opcode.add, .mul, .cmp] := by
  cases o <;> decide

end Sys2Proof

namespace Sys2Proof.Machine

/-! ### The step -/

/-- Settles O7: what decodes is a well-formed instruction that is placed, and a step at a placed one executes it. -/
theorem stepRunsDecodedInstruction : Obligations.StepRunsDecodedInstruction := by
  refine ⟨fun s i hrun hrst hdec => ?_, fun s i hwf hplaced => step_of_placed hwf hplaced⟩
  obtain ⟨hwf, hplaced⟩ := (decode_eq_ok_iff_placed hrun hrst i).mp hdec
  exact ⟨hwf, step_of_placed hwf hplaced⟩

/-- Settles O8: the conditions on the bytes are the decoder's checks, which it makes in this order. -/
theorem stepChecksInOrderThenExecutes : Obligations.StepChecksInOrderThenExecutes := by
  unfold Obligations.StepChecksInOrderThenExecutes
  intro legal noRegister twoRegisters s hrun hrst ir a b
  have hperm : legal.Perm (Opcode.all.map Opcode.byte) := by decide
  have hstep := step_eq_decode hrun hrst
  rw [addrPlus_eq_add, addrPlus_eq_add] at hstep
  rcases decode_cases ir a b with ⟨hnone, hdec⟩ | ⟨o, hbyte, hchecks⟩
  · rw [if_pos ((Opcode.not_mem_iff_of_perm hperm).mpr (Opcode.ofByte?_eq_none.mp hnone))]
    rw [hdec] at hstep
    exact ⟨_, hstep, takeFault_faultTaken s _ _⟩
  have hlegal : ¬ ir ∉ legal := fun hir => (Opcode.not_mem_iff_of_perm hperm).mp hir o hbyte
  have hcheckA : (ir ∉ noRegister ∧ 8 ≤ a.toNat) ↔ (o.control.ra = true ∧ isRegister a = false) := by
    rw [o.control_ra_iff, isRegister_eq_false, ← Opcode.byte_mem_map, hbyte]; rfl
  have hcheckB : (ir ∈ twoRegisters ∧ 8 ≤ b.toNat) ↔ (o.control.rb = true ∧ isRegister b = false) := by
    rw [o.control_rb_iff, isRegister_eq_false, ← Opcode.byte_mem_map, hbyte]; rfl
  rw [if_neg hlegal]
  rcases hchecks with ⟨hra, hbad, hdec⟩ | ⟨ha, hrb, hbad, hdec⟩ | ⟨ha, hb, hdec⟩ <;> rw [hdec] at hstep
  · rw [if_pos (hcheckA.mpr ⟨hra, hbad⟩)]
    exact ⟨_, hstep, takeFault_faultTaken s _ _⟩
  · rw [if_neg (hcheckA.not.mpr ha), if_pos (hcheckB.mpr ⟨hrb, hbad⟩)]
    exact ⟨_, hstep, takeFault_faultTaken s _ _⟩
  · rw [if_neg (hcheckA.not.mpr ha), if_neg (hcheckB.not.mpr hb)]
    obtain ⟨_, _, _, hwf⟩ := decode_ok hdec
    refine ⟨_, hwf, ?_, hstep⟩
    rw [encode_withOperands, hbyte]
    exact List.take_prefix _ _

/-- The causes of a fault are of two kinds. -/
theorem FaultCause.kind_eq {kind : FaultKind} {byte : Byte} {s : State} (h : FaultCause kind byte s) :
    kind = .invalidInstruction ∨ kind = .invalidRegister :=
  h.imp And.left And.left

/-- Settles O9: a step of a Running block is a fault with its cause, or an execution, which halts exactly for HLT. -/
theorem runningStepCompletesHaltsOrFaults : Obligations.RunningStepCompletesHaltsOrFaults := by
  intro s hrun hrst
  obtain ⟨t, h⟩ := step_answers_next s
  refine ⟨t, h, ?_⟩
  rcases step_frame h with ⟨hidle, -⟩ | ⟨-, kind, byte, hcause, rfl⟩ | ⟨-, o, hbyte, hframe⟩
  · exact absurd (takesSteps_iff.mpr ⟨hrun, hrst⟩) (by simp [hidle])
  · exact .inr (.inr ⟨kind, byte, hcause.kind_eq, takeFault_faultTaken s kind byte⟩)
  · rcases hframe.run_state with ⟨rfl, rfl⟩ | ⟨hne, hstatus, hfault, -⟩
    · exact .inr (.inl ⟨rfl, hbyte, rfl⟩)
    · exact .inl ⟨hstatus.trans hrun, hfault, fun hir => hne (Opcode.byte_inj.mp (hbyte.symm.trans hir))⟩

/-! ### The next pc -/

/-- The step of a Running block executes a well-formed instruction unless it takes a fault, which holds pc. -/
theorem step_executes_or_faults {s t : State} (hrun : s.status = .running) (hrst : s.rst = false)
    (h : step s = .next t) :
    (t.status = .faulted ∧ t.pc = s.pc) ∨
    (t.status ≠ .faulted ∧ ∃ (o : Opcode) (b : Byte), s.readMem s.pc = o.byte ∧
      (o.withOperands (s.readMem (addrPlus s.pc 1)) b).wf = true ∧
      exec (o.withOperands (s.readMem (addrPlus s.pc 1)) b) s = .next t) := by
  rcases step_inversion h with ⟨hidle, -⟩ | ⟨-, -, rfl⟩ | ⟨-, o, hbyte, ⟨-, -, rfl⟩ | ⟨-, -, rfl⟩ | ⟨hwf, hexec⟩⟩
  · exact absurd (takesSteps_iff.mpr ⟨hrun, hrst⟩) (by simp [hidle])
  · exact .inl ⟨rfl, rfl⟩
  · exact .inl ⟨rfl, rfl⟩
  · exact .inl ⟨rfl, rfl⟩
  · exact .inr ⟨(exec_frame hwf hexec).not_faulted hrun, o, _, hbyte, hwf, hexec⟩

/-- The datapath's next pc is the pc_mux's, and its register input is as it stands after the step
(40_execution_loop.md R107). -/
theorem driveSignals_pc {c : Control} {f : Fetched} {s t : State} (h : driveSignals c f s = .next t)
    (hok : t.status ≠ .faulted) :
    t.pc = pcMux (pcSelect c.pcsel s.cmpFlag) s.pc c.len (t.readReg (regPort f.a)) (s.readMem s.sp) := by
  unfold driveSignals at h
  cases hbus : writeBackBus c f.a f.b s with
  | none =>
    rw [hbus] at h
    cases h
    exact absurd rfl hok
  | some v =>
    rw [hbus] at h
    cases h
    rfl

/-- The next pc of an executed row is the pc_mux's under the row's signals, which the datapath follows. -/
theorem exec_pc {o : Opcode} {a b : Byte} {s t : State} (hwf : (o.withOperands a b).wf = true)
    (h : exec (o.withOperands a b) s = .next t) (hok : t.status ≠ .faulted) :
    t.pc = pcMux (pcSelect o.control.pcsel s.cmpFlag) s.pc o.length (t.readReg (regPort a)) (s.readMem s.sp) :=
  driveSignals_pc (f := ⟨o.byte, a, b⟩) ((driveSignals_control hwf s).trans h) hok

/-- The operand_a of a well-formed instruction whose row checks it names a register. -/
theorem operandA_of_wf {o : Opcode} {a b : Byte} (hwf : (o.withOperands a b).wf = true)
    (hra : o.control.ra = true) : ∃ r : Fin 8, a = regByte r := by
  rw [Opcode.withOperands_wf, hra] at hwf
  simp only [Bool.not_true, Bool.false_or, Bool.and_eq_true] at hwf
  exact isRegister_eq_true.mp hwf.1

/-- An executed row whose pc_mux input is sequential goes to the byte after it, modulo 256. -/
theorem exec_pc_seq {o : Opcode} {a b : Byte} {s t : State} (hwf : (o.withOperands a b).wf = true)
    (h : exec (o.withOperands a b) s = .next t) (hok : t.status ≠ .faulted)
    (hsel : pcSelect o.control.pcsel s.cmpFlag = .seq) : t.pc.toNat = (s.pc.toNat + o.length) % 256 := by
  rw [exec_pc hwf h hok, hsel]
  exact addrPlus_toNat s.pc o.length

/-- An executed row whose pc_mux input is the register goes to the value, after the step, of the register its checked
operand_a names. -/
theorem exec_pc_reg {o : Opcode} {a b : Byte} {s t : State} (hwf : (o.withOperands a b).wf = true)
    (h : exec (o.withOperands a b) s = .next t) (hok : t.status ≠ .faulted)
    (hsel : pcSelect o.control.pcsel s.cmpFlag = .reg) (hra : o.control.ra = true) :
    ∃ r : Fin 8, a = regByte r ∧ t.pc = t.readReg r := by
  obtain ⟨r, rfl⟩ := operandA_of_wf hwf hra
  have hpc := exec_pc hwf h hok
  rw [hsel, regPort_regByte] at hpc
  exact ⟨r, rfl, hpc⟩

/-- Settles O11: a step that does not fault executes a row, whose next pc is the pc_mux's under the row's signals. -/
theorem nextPcFollowsThePcMux : Obligations.NextPcFollowsThePcMux := by
  intro s t hrun hrst h ir
  rcases step_executes_or_faults hrun hrst h with ⟨hfaulted, hpc⟩ | ⟨hok, o, b, hbyte, hwf, hexec⟩
  · exact ⟨fun _ => hpc, fun hok => absurd hfaulted hok⟩
  refine ⟨fun hfaulted => absurd hfaulted hok, fun _ => ?_⟩
  have hir : ir = o.byte := hbyte
  rw [hir, ← addrPlus_eq_add s.pc 1]
  refine ⟨fun hop => ?_, fun hop => ?_, fun hop hflag => ?_, fun hop hflag => ?_, fun hop => ?_, fun hop => ?_,
    fun hop => ?_⟩
  · have ho : o ∈ [Opcode.ldi, .mul, .add, .cmp] := Opcode.byte_mem_map.mp hop
    obtain ⟨hsel, hlen⟩ : o.control.pcsel = .always .seq ∧ o.length = 3 := by revert ho; cases o <;> decide
    rw [← hlen]
    exact exec_pc_seq hwf hexec hok (by rw [hsel]; rfl)
  · have ho : o ∈ [Opcode.prn, .push, .pop] := Opcode.byte_mem_map.mp hop
    obtain ⟨hsel, hlen⟩ : o.control.pcsel = .always .seq ∧ o.length = 2 := by revert ho; cases o <;> decide
    rw [← hlen]
    exact exec_pc_seq hwf hexec hok (by rw [hsel]; rfl)
  · obtain rfl : o = .jeq := Opcode.byte_inj.mp hop
    exact exec_pc_seq hwf hexec hok (by rw [hflag]; rfl)
  · obtain rfl : o = .jne := Opcode.byte_inj.mp hop
    exact exec_pc_seq hwf hexec hok (by rw [hflag]; rfl)
  · rcases hop with hop | ⟨hop, hflag⟩ | ⟨hop, hflag⟩
    · have ho : o ∈ [Opcode.call, .jmp] := Opcode.byte_mem_map.mp hop
      obtain ⟨hsel, hra⟩ : o.control.pcsel = .always .reg ∧ o.control.ra = true := by revert ho; cases o <;> decide
      exact exec_pc_reg hwf hexec hok (by rw [hsel]; rfl) hra
    · obtain rfl : o = .jeq := Opcode.byte_inj.mp hop
      exact exec_pc_reg hwf hexec hok (by rw [hflag]; rfl) rfl
    · obtain rfl : o = .jne := Opcode.byte_inj.mp hop
      exact exec_pc_reg hwf hexec hok (by rw [hflag]; rfl) rfl
  · obtain rfl : o = .ret := Opcode.byte_inj.mp hop
    exact exec_pc hwf hexec hok
  · obtain rfl : o = .hlt := Opcode.byte_inj.mp hop
    exact exec_pc hwf hexec hok

/-! ### The ALU -/

/-- ADD is addition of bytes, which is the same for unsigned and two's-complement bytes. -/
theorem aluAdd_eq_add (u v : Byte) : aluAdd u v = u + v := BitVec.eq_of_toNat_eq (by simp [aluAdd_toNat])

/-- MUL is multiplication of bytes, which is the same for unsigned and two's-complement bytes. -/
theorem aluMul_eq_mul (u v : Byte) : aluMul u v = u * v := BitVec.eq_of_toNat_eq (by simp [aluMul_toNat])

/-- Settles O16: reading bytes as integers and reducing modulo 256 commutes with sum and product. -/
theorem aluResultsWrapUnderBothReadings : Obligations.AluResultsWrapUnderBothReadings := by
  refine fun u v => ⟨?_, aluAdd_toNat u v, ?_, aluMul_toNat u v⟩
  · rw [BitVec.ofInt_add, BitVec.ofInt_toInt, BitVec.ofInt_toInt, ← aluAdd_eq_add]
    rfl
  · rw [BitVec.ofInt_mul, BitVec.ofInt_toInt, BitVec.ofInt_toInt, ← aluMul_eq_mul]
    rfl

end Sys2Proof.Machine
end

section
/-! The fault of a bad register operand, for every instruction: the execution and the step at the instruction's bytes
report the same byte. -/

namespace Sys2Proof

/-- A row's register operands are the operand bytes that its `ra` and `rb` signals check (30_encoding.md R73). -/
theorem Opcode.registerOperands_withOperands (o : Opcode) (a b : Byte) :
    (o.withOperands a b).registerOperands =
      (if o.control.ra then [a] else []) ++ (if o.control.rb then [b] else []) := by
  cases o <;> rfl

end Sys2Proof

namespace Sys2Proof.Machine

/-- The decoder reports the first bad operand of the instruction (40_execution_loop.md R103). -/
theorem decode_bad_operand {o : Opcode} {a b c : Byte} (h : firstBadOperand (o.withOperands a b) = some c) :
    decode o.byte a b = .badRegister c := by
  have hops := Opcode.registerOperands_withOperands o a b
  rcases decode_cases o.byte a b with ⟨hnone, -⟩ | ⟨p, hp, hcheck⟩
  · simp at hnone
  obtain rfl := Opcode.byte_inj.mp hp
  rcases hcheck with ⟨hra, ha, hdec⟩ | ⟨ha, hrb, hb, hdec⟩ | ⟨-, -, hdec⟩
  · obtain rfl : a = c := by simpa [firstBadOperand, hops, hra, ha] using h
    exact hdec
  · have hpass : (if p.control.ra then [a] else []).find? (fun x => !isRegister x) = none := by
      simpa [List.find?_eq_none] using ha
    obtain rfl : b = c := by simpa [firstBadOperand, hops, hpass, hrb, hb] using h
    exact hdec
  · obtain ⟨-, -, -, hwf⟩ := decode_ok hdec
    simp [firstBadOperand_eq_none.mpr hwf] at h

/-- An instruction with a bad operand, executed or stepped at its own bytes, takes InvalidRegister with the first bad
operand and changes nothing else (30_encoding.md R78, 60_exceptions.md R165, R167). -/
theorem bad_operand_faults {i : Instr} {b : Byte} (hbad : firstBadOperand i = some b) (s : State) :
    ∃ t, exec i s = .next t ∧ (Placed i s → step s = .next t) ∧ FaultTaken .invalidRegister b s t := by
  refine ⟨_, exec_bad_operand hbad s, fun hplaced => ?_, takeFault_faultTaken s .invalidRegister b⟩
  have ⟨hrun, hrst, _⟩ := hplaced
  rw [hplaced.eq_withOperands] at hbad
  rw [step_eq_decode hrun hrst, hplaced.opcode_byte, decode_bad_operand hbad]

/-- The bad operand of an instruction whose operand_a alone is a register. -/
theorem firstBadOperand_of_one {i : Instr} {a : Byte} (hops : i.registerOperands = [a]) (ha : 8 ≤ a.toNat) :
    firstBadOperand i = some a := by
  simp [firstBadOperand, hops, isRegister_eq_false.mpr ha]

/-- The first bad operand of an instruction with two register operands is operand_a when both are bad. -/
theorem firstBadOperand_of_two {i : Instr} {a b : Byte} (hops : i.registerOperands = [a, b])
    (hbad : 8 ≤ a.toNat ∨ 8 ≤ b.toNat) : firstBadOperand i = some (if 8 ≤ a.toNat then a else b) := by
  rw [firstBadOperand, hops]
  by_cases ha : 8 ≤ a.toNat
  · simp [isRegister_eq_false.mpr ha, ha]
  · have hra : isRegister a = true := by simpa [isRegister] using ha
    have hrb : isRegister b = false := isRegister_eq_false.mpr (hbad.resolve_left ha)
    simp [hra, hrb, ha]

end Sys2Proof.Machine
end

section
/-! LDI, ADD and MUL: O13, O14 and O15. -/

namespace Sys2Proof.Machine

/-- Execution that writes register `d` and goes on three bytes further is also the step at the instruction's bytes, puts
the byte into `d` and leaves everything else but pc as it was. -/
theorem writesRegister_of_exec {i : Instr} {d : Fin 8} {v : Byte} {s : State} (hwf : i.wf = true)
    (hexec : exec i s = .next ((s.writeReg d v).advance 3)) :
    ∃ t, exec i s = .next t ∧ (Placed i s → step s = .next t) ∧
      t.readReg d = v ∧ KeepsRegsBut [d] s t ∧ t.pc.toNat = (s.pc.toNat + 3) % 256 ∧
      t.cmpFlag = s.cmpFlag ∧ KeepsMem s t ∧ t.out = s.out ∧ KeepsRunState s t := by
  refine ⟨_, hexec, fun hplaced => (step_of_placed hwf hplaced).trans hexec, by simp, fun q hq => ?_,
    addrPlus_toNat s.pc 3, rfl, fun _ => rfl, rfl, rfl, rfl, rfl⟩
  by_contra hne
  exact hq (List.mem_singleton.mpr (State.eq_of_readReg_writeReg_ne hne))

/-- Settles O13: LDI writes the immediate into the register its first operand names. -/
theorem ldiLoadsTheImmediate : Obligations.LdiLoadsTheImmediate := by
  refine ⟨fun _ _ => rfl, fun d imm s => ?_, fun a imm s ha => ?_⟩
  · exact writesRegister_of_exec (by simp [Instr.wf, Instr.registerOperands]) (exec_ldi d imm s)
  · exact bad_operand_faults (firstBadOperand_of_one rfl ha) s

/-- Settles O14: ADD writes the ALU's sum of the old values into its first register. -/
theorem addWritesTheSumModulo256 : Obligations.AddWritesTheSumModulo256 := by
  refine ⟨fun _ _ => rfl, fun d r s => ?_, fun a b s hbad => ?_⟩
  · simp only [← aluAdd_toNat, BitVec.toNat_inj]
    exact writesRegister_of_exec (by simp [Instr.wf, Instr.registerOperands]) (exec_add d r s)
  · exact bad_operand_faults (firstBadOperand_of_two rfl hbad) s

/-- Settles O15: MUL writes the ALU's product of the old values into its first register. -/
theorem mulWritesTheProductModulo256 : Obligations.MulWritesTheProductModulo256 := by
  refine ⟨fun _ _ => rfl, fun d r s => ?_, fun a b s hbad => ?_⟩
  · simp only [← aluMul_toNat, BitVec.toNat_inj]
    exact writesRegister_of_exec (by simp [Instr.wf, Instr.registerOperands]) (exec_mul d r s)
  · exact bad_operand_faults (firstBadOperand_of_two rfl hbad) s

end Sys2Proof.Machine
end

section
/-! The stack instructions PUSH, POP, CALL and RET, and the round trips that follow from what each does: O17, O18, O19,
O20 and O27. -/

namespace Sys2Proof.Machine

/-- An instruction whose one register operand names a register is well formed. -/
theorem wf_of_one_register {i : Instr} {r : Fin 8} (hops : i.registerOperands = [regByte r]) : i.wf = true := by
  simp [Instr.wf, hops]

/-- What holds of every register that changed bounds the registers that change. -/
theorem keepsRegsBut_of_changed {changed : List (Fin 8)} {s t : State}
    (h : ∀ q : Fin 8, t.readReg q ≠ s.readReg q → q ∈ changed) : KeepsRegsBut changed s t :=
  fun q hq => not_not.mp (mt (h q) hq)

/-- A register read after SP is decremented: R7 is the new SP. -/
theorem State.readReg_decSp_eq_ite (s : State) (r : Fin 8) :
    s.decSp.readReg r = if r = 7 then s.decSp.sp else s.readReg r := by
  rw [State.readReg_decSp, State.sp_decSp]
  exact if_congr eq_comm rfl rfl

/-! ### Pushes -/

/-- Execution that pushes a byte and goes on at `target` is also the step at the instruction's bytes, decrements SP, stores
the byte at the new SP and leaves everything else but pc as it was: PUSH and CALL. -/
theorem pushesByte_of_exec {i : Instr} {byteOf : State → Byte} {v target : Byte} {s : State} (hwf : i.wf = true)
    (hmem : s.mem.wf = true) (hexec : exec i s = .next ((s.pushByte byteOf).jump target)) (hv : byteOf s.decSp = v) :
    ∃ t, exec i s = .next t ∧ (Placed i s → step s = .next t) ∧
      s.decSp.sp = s.readReg 7 - 1#8 ∧ t.readReg 7 = s.decSp.sp ∧ KeepsRegsBut [7] s t ∧
      t.readMem s.decSp.sp = v ∧ KeepsMemBut s.decSp.sp s t ∧
      t.pc = target ∧ t.cmpFlag = s.cmpFlag ∧ t.out = s.out ∧ KeepsRunState s t :=
  ⟨_, hexec, fun hplaced => (step_of_placed hwf hplaced).trans hexec, State.sp_decSp s, rfl,
    keepsRegsBut_of_changed fun _ hq => List.mem_singleton.mpr (State.eq_of_readReg_writeReg_ne hq),
    (State.readMem_pushByte_same hmem byteOf).trans hv, fun _ hne => State.readMem_pushByte_other s byteOf hne,
    rfl, rfl, rfl, rfl, rfl, rfl⟩

/-- Settles O17: PUSH pushes its register's byte as it stands after the decrement. -/
theorem pushStoresBelowTheOldSp : Obligations.PushStoresBelowTheOldSp := by
  refine ⟨fun _ => rfl, fun r s hmem => ?_, fun a s ha => ?_⟩
  · simp only [← addrPlus_toNat, BitVec.toNat_inj]
    exact pushesByte_of_exec (wf_of_one_register rfl) hmem (exec_push r s) (State.readReg_decSp_eq_ite s r)
  · exact bad_operand_faults (firstBadOperand_of_one rfl ha) s

/-- Settles O19: CALL pushes pc + 2 and goes on at its register's byte as it stands after the decrement. -/
theorem callPushesReturnAddressAndJumps : Obligations.CallPushesReturnAddressAndJumps := by
  refine ⟨fun _ => rfl, fun r s hmem => ?_, fun a s ha => ?_⟩
  · simp only [← addrPlus_toNat, BitVec.toNat_inj, ← State.readReg_decSp_eq_ite]
    exact pushesByte_of_exec (wf_of_one_register rfl) hmem (exec_call r s) rfl
  · exact bad_operand_faults (firstBadOperand_of_one rfl ha) s

/-! ### Pops -/

/-- A register read after a register is loaded and SP then incremented, as POP does. -/
theorem State.readReg_incSp_writeReg (s : State) (d q : Fin 8) (v : Byte) :
    (s.writeReg d v).incSp.readReg q =
      if q = 7 then (if d = 7 then v else s.readReg 7) + 1#8 else if q = d then v else s.readReg q := by
  rw [State.readReg_incSp, State.sp_writeReg, State.readReg_writeReg]
  exact if_congr eq_comm rfl (if_congr eq_comm rfl rfl)

/-- Settles O18: POP loads the byte at SP into its register and then increments SP. -/
theorem popLoadsThenIncrementsSp : Obligations.PopLoadsThenIncrementsSp := by
  refine ⟨fun _ => rfl, fun d s => ?_, fun a s ha => ?_⟩
  · have hexec := exec_pop d s
    have hregs := State.readReg_incSp_writeReg s d (v := s.readMem (s.readReg 7))
    refine ⟨_, hexec, fun hplaced => (step_of_placed (wf_of_one_register rfl) hplaced).trans hexec,
      (hregs d).trans ?_, fun hd => (hregs 7).trans ?_, fun q hq => (hregs q).trans ?_, fun _ => rfl,
      addrPlus_toNat s.pc 2, rfl, rfl, rfl, rfl, rfl⟩
    · by_cases hd : d = 7 <;> simp [hd]
    · simp [hd]
    · simp only [List.mem_cons, List.not_mem_nil, or_false, not_or] at hq
      obtain ⟨hqd, hq7⟩ := hq
      rw [if_neg hq7, if_neg hqd]
  · exact bad_operand_faults (firstBadOperand_of_one rfl ha) s

/-- Settles O20: RET jumps to the byte at SP and increments SP. -/
theorem retPopsThePc : Obligations.RetPopsThePc :=
  ⟨rfl, fun s => ⟨_, exec_ret s, fun hplaced => (step_of_placed rfl hplaced).trans (exec_ret s), rfl, State.sp_incSp s,
    keepsRegsBut_of_changed fun _ hq => List.mem_singleton.mpr (State.eq_of_readReg_writeReg_ne hq), fun _ => rfl,
    rfl, rfl, rfl, rfl, rfl⟩⟩

/-! ### Round trips -/

/-- Settles O27: the pop reads the byte that the push stored at the SP the push left. -/
theorem stackRoundTrips : Obligations.StackRoundTrips := by
  obtain ⟨-, hpush, -⟩ := pushStoresBelowTheOldSp
  obtain ⟨-, hpop, -⟩ := popLoadsThenIncrementsSp
  obtain ⟨-, hcall, -⟩ := callPushesReturnAddressAndJumps
  obtain ⟨-, hret⟩ := retPopsThePc
  refine ⟨fun r s t hmem hexec => ?_, fun r s t u hmem hexec hsp hslot => ?_⟩
  · obtain ⟨_, hexec', -, hdec, hsp, hkept, hstored, -⟩ := hpush r s hmem
    cases hexec.symm.trans hexec'
    obtain ⟨u, hexecPop, -, hloaded, hinc, hkeptPop, -⟩ := hpop r t
    refine ⟨u, hexecPop, fun q => ?_⟩
    rw [hsp, hstored, hdec] at hloaded
    rw [hsp, hdec] at hinc
    by_cases hqr : q = r
    · subst hqr
      by_cases hq7 : q = 7 <;> simpa [hq7] using hloaded
    · by_cases hq7 : q = 7
      · subst hq7
        simpa using hinc (Ne.symm hqr)
      · exact (hkeptPop q (by simp [hqr, hq7])).trans (hkept q (by simp [hq7]))
  · obtain ⟨_, hexec', -, hdec, hspT, -, hstored, -⟩ := hcall r s hmem
    cases hexec.symm.trans hexec'
    obtain ⟨v, hexecRet, -, hpc, hinc, -⟩ := hret u
    refine ⟨v, hexecRet, ?_, ?_⟩
    · rw [hpc, hsp, hslot, hspT, hstored]
    · rw [hinc, hsp, hspT, hdec, BitVec.sub_add_cancel]

end Sys2Proof.Machine
end

section
/-! The compare and branch instructions CMP, JMP, JEQ and JNE, and a CMP with a branch after it: O21, O22, O23, O24 and
O28. -/

namespace Sys2Proof.Machine

/-! ### Compare -/

/-- The comparator answers 1 exactly when its two bytes are equal (43_compare_branch.md R140). -/
theorem equalFlag_eq_true {u v : Byte} : equalFlag u v = true ↔ u = v := beq_iff_eq

/-- Settles O21: CMP writes the comparator's answer to the flag, and a step that changes the flag is a CMP. -/
theorem cmpLatchesEquality : Obligations.CmpLatchesEquality := by
  refine ⟨fun _ _ => rfl, fun d r s => ?_, fun s t h hop => ?_, fun a b s hbad => ?_⟩
  · have hexec := exec_cmp d r s
    have hwf : (Instr.cmp (regByte d) (regByte r)).wf = true := by simp [Instr.wf, Instr.registerOperands]
    exact ⟨_, hexec, fun hplaced => (step_of_placed hwf hplaced).trans hexec, equalFlag_eq_true, fun _ _ => rfl,
      addrPlus_toNat s.pc 3, fun _ => rfl, rfl, rfl, rfl, rfl⟩
  · by_contra hne
    obtain ⟨hcmp, -⟩ := step_flag_changed h hne
    exact hop hcmp
  · exact bad_operand_faults (firstBadOperand_of_two rfl hbad) s

/-! ### Jumps -/

/-- A jump to where the pc already stands changes nothing. -/
theorem State.jump_eq_self {s : State} {target : Byte} (h : target = s.pc) : s.jump target = s := by
  subst h
  rfl

/-- Execution that jumps is also the step at the instruction's bytes, goes on at the target and leaves everything else as
it was: JMP, JEQ and JNE. -/
theorem jumps_of_exec {i : Instr} {target : Byte} {s : State} (hwf : i.wf = true)
    (hexec : exec i s = .next (s.jump target)) :
    ∃ t, exec i s = .next t ∧ (Placed i s → step s = .next t) ∧
      t.pc = target ∧ KeepsRegsBut [] s t ∧ t.cmpFlag = s.cmpFlag ∧ KeepsMem s t ∧ t.out = s.out ∧
      KeepsRunState s t ∧ (target = s.pc → t = s) :=
  ⟨_, hexec, fun hplaced => (step_of_placed hwf hplaced).trans hexec, rfl, fun _ _ => rfl, rfl, fun _ => rfl, rfl,
    ⟨rfl, rfl, rfl⟩, State.jump_eq_self⟩

/-- Settles O22: JMP jumps to its register's byte. -/
theorem jmpGoesToTheRegister : Obligations.JmpGoesToTheRegister := by
  refine ⟨fun _ => rfl, fun r s => ?_, fun a s ha => ?_⟩
  · exact jumps_of_exec (wf_of_one_register rfl) (exec_jmp r s)
  · exact bad_operand_faults (firstBadOperand_of_one rfl ha) s

/-- Execution that jumps when the flag has `value` and goes on two bytes further otherwise is also the step at the
instruction's bytes and leaves everything but pc as it was: JEQ and JNE. -/
theorem branches_of_exec {i : Instr} {value : Bool} {target : Byte} {s : State} (hwf : i.wf = true)
    (hexec : exec i s = .next (s.branchWhen value target)) :
    ∃ t, exec i s = .next t ∧ (Placed i s → step s = .next t) ∧
      (s.cmpFlag = value → t.pc = target) ∧ (s.cmpFlag = !value → t.pc.toNat = (s.pc.toNat + 2) % 256) ∧
      KeepsRegsBut [] s t ∧ t.cmpFlag = s.cmpFlag ∧ KeepsMem s t ∧ t.out = s.out ∧ KeepsRunState s t := by
  obtain ⟨t, hexec', hstep, hpc, hregs, hflag, hmem, hout, hstate, -⟩ :=
    jumps_of_exec hwf (hexec.trans (congrArg _ (branchWhen_eq s value target)))
  refine ⟨t, hexec', hstep, fun htaken => ?_, fun hskipped => ?_, hregs, hflag, hmem, hout, hstate⟩
  · rw [hpc, if_pos htaken]
  · have hne : s.cmpFlag ≠ value := by simp [hskipped]
    rw [hpc, if_neg hne, addrPlus_toNat]

/-- Settles O23: JEQ branches when the flag is 1. -/
theorem jeqBranchesWhenFlagIsOne : Obligations.JeqBranchesWhenFlagIsOne := by
  refine ⟨rfl, fun _ => rfl, fun r s => ?_, fun a s ha => ?_⟩
  · exact branches_of_exec (wf_of_one_register rfl) (exec_jeq r s)
  · exact bad_operand_faults (firstBadOperand_of_one rfl ha) s

/-- Settles O24: JNE branches when the flag is 0, where JEQ does not. -/
theorem jneBranchesWhenFlagIsZero : Obligations.JneBranchesWhenFlagIsZero := by
  refine ⟨rfl, fun r s e n he hn => ?_, fun _ => rfl, fun r s => ?_, fun a s ha => ?_⟩
  · cases (exec_jeq r s).symm.trans he
    cases (exec_jne r s).symm.trans hn
    cases hflag : s.cmpFlag with
    | true => exact .inl (by simp [hflag])
    | false => exact .inr (by simp [hflag])
  · exact branches_of_exec (wf_of_one_register rfl) (exec_jne r s)
  · exact bad_operand_faults (firstBadOperand_of_one rfl ha) s

/-! ### Compare, then branch -/

/-- Settles O28: the CMP leaves the flag at which exactly one of the two branches is taken. -/
theorem compareThenBranchGoesOppositeWays : Obligations.CompareThenBranchGoesOppositeWays := by
  obtain ⟨-, hcmp, -⟩ := cmpLatchesEquality
  obtain ⟨-, -, hjeq, -⟩ := jeqBranchesWhenFlagIsOne
  obtain ⟨-, -, -, hjne, -⟩ := jneBranchesWhenFlagIsZero
  intro d r target s t hexec
  obtain ⟨_, hexec', -, hflag, hregs, hpc, -⟩ := hcmp d r s
  cases hexec.symm.trans hexec'
  obtain ⟨e, hexecJeq, -, hjeqTaken, hjeqSkipped, -⟩ := hjeq target t
  obtain ⟨n, hexecJne, -, hjneTaken, hjneSkipped, -⟩ := hjne target t
  have htarget : t.readReg target = s.readReg target := hregs target List.not_mem_nil
  have hpc5 : (t.pc.toNat + 2) % 256 = (s.pc.toNat + 5) % 256 := by omega
  refine ⟨e, n, hexecJeq, hexecJne, fun heq => ?_, fun hne => ?_⟩
  · have hone : t.cmpFlag = true := hflag.mpr heq
    exact ⟨(hjeqTaken hone).trans htarget, (hjneSkipped hone).trans hpc5⟩
  · have hzero : t.cmpFlag = false := Bool.eq_false_iff.mpr (mt hflag.mp hne)
    exact ⟨(hjneTaken hzero).trans htarget, (hjeqSkipped hzero).trans hpc5⟩

end Sys2Proof.Machine
end

section
/-! The halt and output instructions HLT and PRN: O25 and O26. -/

namespace Sys2Proof.Machine

/-! ### Halt -/

/-- A halted block takes no step (40_execution_loop.md R106). -/
theorem State.takesSteps_halt (s : State) : s.halt.takesSteps = false :=
  Bool.eq_false_iff.mpr fun hsteps => nomatch (takesSteps_iff.mp hsteps).1

/-- Settles O25: HLT sets the status to Halted and nothing else. -/
theorem hltHaltsAndHoldsThePc : Obligations.HltHaltsAndHoldsThePc :=
  ⟨rfl, fun s => ⟨_, exec_hlt s, fun hplaced => (step_of_placed rfl hplaced).trans (exec_hlt s), rfl, rfl,
    fun _ _ => rfl, rfl, fun _ => rfl, rfl, rfl, rfl, s.takesSteps_halt⟩⟩

/-! ### Output -/

/-- A move that appends one byte to the output pulses that byte (10_state.md R43). -/
theorem outPulse_of_append {s t : State} {v : Byte} (h : t.out = s.out ++ [v]) : outPulse s t = some v := by
  rw [outPulse, h, List.getElem?_concat_length]

/-- A move that keeps the output pulses nothing (10_state.md R43). -/
theorem outPulse_of_out_kept {s t : State} (h : t.out = s.out) : outPulse s t = none := by
  rw [outPulse, h, List.getElem?_length]

/-- Settles O26: PRN appends its register's byte, which is the pulse, and a bad operand's fault keeps the output. -/
theorem prnAppendsTheRegister : Obligations.PrnAppendsTheRegister := by
  refine ⟨fun _ => rfl, fun r s => ?_, fun a s ha => ?_⟩
  · have hexec := exec_prn r s
    exact ⟨_, hexec, fun hplaced => (step_of_placed (wf_of_one_register rfl) hplaced).trans hexec, rfl,
      outPulse_of_append rfl, addrPlus_toNat s.pc 2, fun _ _ => rfl, rfl, fun _ => rfl, rfl, rfl, rfl⟩
  · obtain ⟨t, hexec, hstep, hfault⟩ := bad_operand_faults (i := .prn a) (firstBadOperand_of_one rfl ha) s
    have ⟨_, _, _, _, _, hout, _⟩ := hfault
    exact ⟨t, hexec, hstep, hfault, outPulse_of_out_kept hout⟩

end Sys2Proof.Machine
end

section
/-! Faults: O29 and O30. -/

namespace Sys2Proof.Machine

/-! ### Precision -/

/-- Settles O29: a step that stays or executes does not end Faulted, and taking a fault writes the status and the record
only. -/
theorem faultsArePrecise : Obligations.FaultsArePrecise := by
  intro s t hrun h hfaulted
  rcases step_frame h with ⟨-, rfl⟩ | ⟨-, kind, byte, -, rfl⟩ | ⟨-, o, -, hframe⟩
  · exact absurd (hrun.symm.trans hfaulted) nofun
  · exact ⟨kind, byte, takeFault_faultTaken s kind byte⟩
  · exact absurd hfaulted (hframe.not_faulted hrun)

/-! ### The kinds a run can record -/

/-- A run keeps what every step keeps. -/
theorem run_keeps {P : State → Prop} (hstep : ∀ s t, P s → step s = .next t → P t) {k : Nat} {s t : State} (hs : P s)
    (h : Sys2Proof.core.run k s = .next t) : P t := by
  induction k generalizing s with
  | zero =>
    rw [run_zero] at h
    cases h
    exact hs
  | succ k ih =>
    obtain ⟨u, hu⟩ := step_answers_next s
    rw [run_succ k hu] at h
    exact ih (hstep s u hs hu) h

/-- The record, if any, is of one of the two kinds the decoder's checks raise (60_exceptions.md R161, R162). -/
def RecordFromChecks (s : State) : Prop :=
  ∀ f, s.fault = some f → f.kind = .invalidInstruction ∨ f.kind = .invalidRegister

/-- An execution keeps the fault record. -/
theorem ExecFrame.fault_eq {o : Opcode} {a : Byte} {s t : State} (h : ExecFrame o a s t) : t.fault = s.fault := by
  rcases h.run_state with ⟨-, rfl⟩ | ⟨-, -, hfault, -⟩
  · rfl
  · exact hfault

/-- A step records nothing but the two kinds of its fault causes. -/
theorem step_keeps_recordFromChecks (s t : State) (hs : RecordFromChecks s) (h : step s = .next t) :
    RecordFromChecks t := by
  rcases step_frame h with ⟨-, rfl⟩ | ⟨-, kind, byte, hcause, rfl⟩ | ⟨-, o, -, hframe⟩
  · exact hs
  · rintro f ⟨⟩
    exact hcause.kind_eq
  · exact fun f hf => hs f (hframe.fault_eq.symm.trans hf)

/-- The decoder drives no ALU tag but ADD's and MUL's (40_execution_loop.md R111). -/
theorem Opcode.control_alu {o : Opcode} {tag : AluTag} (h : o.control.alu = some tag) : tag = .add ∨ tag = .mul := by
  cases o <;> cases h
  case mul => exact .inr rfl
  case add => exact .inl rfl

/-- Settles O30: the ALU rejects every other tag, no row drives one, and every step keeps the record to the two kinds of
the decoder's checks, which a state with no record meets. -/
theorem unsupportedOperationIsUnreachable : Obligations.UnsupportedOperationIsUnreachable := by
  refine ⟨fun code ir d r s => ?_, fun _ _ => Opcode.control_alu, fun k s t hnone hrun => ?_⟩
  · exact ⟨_, aluApply_other code ir d r s, takeFault_faultTaken s _ ir⟩
  · have hstart : RecordFromChecks s := by simp [RecordFromChecks, hnone]
    exact run_keeps step_keeps_recordFromChecks hstart hrun

end Sys2Proof.Machine
end

section
/-! Reset, and the states that wait for it: O10 and O41. -/

namespace Sys2Proof.Machine

/-! ### The reset input -/

/-- Asserting `rst` gives the reset values, held (10_state.md R41). -/
theorem State.driveRst_asserted {s : State} (hrst : s.rst = false) :
    s.driveRst true = { State.reset with rst := true } := by
  simp [State.driveRst, hrst]

/-- Releasing a released `rst` changes nothing. -/
theorem State.driveRst_released {s : State} (hrst : s.rst = false) : s.driveRst false = s := by
  rw [State.driveRst, ← hrst]

/-- Settles O41: the asserted state is the reset values with `rst` asserted, which takes no step, and releasing it gives
the reset state. -/
theorem resetAtAnyStatusGivesTheResetValues : Obligations.ResetAtAnyStatusGivesTheResetValues := by
  intro s hrst
  rw [State.driveRst_asserted hrst]
  have hregs : ∀ r : Fin 8, r ≠ 7 → State.reset.readReg r = 0x00#8 := by decide
  exact ⟨hregs, rfl, rfl, rfl, reset_readMem, rfl, rfl, rfl, fun k => run_idle k rfl, rfl, rfl, rfl, rfl⟩

/-! ### Halted and Faulted -/

/-- A block that takes no step, `rst` released, stays as it is at every move but the assertion of `rst`: the load port
ignores its writes. -/
theorem applyMove_idle {s : State} (hrst : s.rst = false) (hidle : s.takesSteps = false) {m : Move}
    (hm : m ≠ .rst true) : applyMove m s = .next s := by
  match m with
  | .step => exact step_idle hidle
  | .rst true => exact absurd rfl hm
  | .rst false => exact congrArg Host.Outcome.next (State.driveRst_released hrst)
  | .load addr data => exact congrArg Host.Outcome.next (State.hostWrite_released hrst addr data)

/-- The same for a sequence of moves. -/
theorem runMoves_idle {s : State} (hrst : s.rst = false) (hidle : s.takesSteps = false) {moves : List Move}
    (hmoves : Move.rst true ∉ moves) : runMoves moves s = .next s := by
  induction moves with
  | nil => rfl
  | cons m rest ih =>
    obtain ⟨hm, hrest⟩ := not_or.mp (mt List.mem_cons.mpr hmoves)
    rw [runMoves, applyMove_idle hrst hidle (Ne.symm hm)]
    exact ih hrest

/-- Settles O10: a block that is not Running takes no step, and no move but the assertion of `rst` changes it. -/
theorem terminalStatesWaitForReset : Obligations.TerminalStatesWaitForReset := by
  intro s hrst hterminal
  have hidle : s.takesSteps = false := by simp [State.takesSteps, hterminal]
  refine ⟨fun k => run_idle k hidle, fun _ => runMoves_idle hrst hidle, ?_⟩
  rw [State.driveRst_asserted hrst]
  rfl

end Sys2Proof.Machine
end

section
/-! Canonical memories as maps: O38. -/

namespace Sys2Proof.Machine

/-- What the canonical form says of its first cell and of the rest. -/
theorem Memory.wfFrom_cons {least a : Nat} {v : Byte} {rest : Memory} :
    Memory.wfFrom least ((a, v) :: rest) = true ↔
      least ≤ a ∧ a < Config.memSize ∧ v ≠ Config.unlistedByte ∧ rest.wfFrom (a + 1) = true := by
  simp [Memory.wfFrom, and_assoc]

@[simp] theorem Memory.read_cons_self (a : Nat) (v : Byte) (rest : Memory) : Memory.read ((a, v) :: rest) a = v :=
  if_pos rfl

/-- A canonical memory lists no address below its first cell's. -/
theorem Memory.head_le_of_read_ne {least a b : Nat} {w : Byte} {rest : Memory}
    (h : Memory.wfFrom least ((b, w) :: rest) = true) (hne : Memory.read ((b, w) :: rest) a ≠ Config.unlistedByte) :
    b ≤ a := by
  obtain ⟨-, hsize, hw, hrest⟩ := Memory.wfFrom_cons.mp h
  by_contra hlt
  exact hne (Memory.read_of_lt (Memory.wfFrom_cons.mpr ⟨le_rfl, hsize, hw, hrest⟩) (not_le.mp hlt))

/-- Rests that follow the same first cell read alike if the whole memories do. -/
theorem Memory.read_rest_eq {a addr : Nat} {v : Byte} {rest others : Memory} (hrest : rest.wfFrom (a + 1) = true)
    (hothers : others.wfFrom (a + 1) = true)
    (h : Memory.read ((a, v) :: rest) addr = Memory.read ((a, v) :: others) addr) :
    rest.read addr = others.read addr := by
  by_cases ha : a = addr
  · rw [Memory.read_of_lt hrest (by omega), Memory.read_of_lt hothers (by omega)]
  · simpa [Memory.read, ha] using h

/-- Canonical memories that read alike inside the address space are the same list, by induction on one of them: the first
cell of each is at an address the other lists, so it is the first cell of both. -/
theorem Memory.eq_of_read_eq {m n : Memory} {least : Nat} (hm : m.wfFrom least = true) (hn : n.wfFrom least = true)
    (h : ∀ addr, addr < Config.memSize → m.read addr = n.read addr) : m = n := by
  induction m generalizing n least with
  | nil =>
    cases n with
    | nil => rfl
    | cons d others =>
      obtain ⟨-, hsize, hw, -⟩ := Memory.wfFrom_cons.mp hn
      exact absurd ((h _ hsize).trans (Memory.read_cons_self _ _ _)).symm hw
  | cons c rest ih =>
    obtain ⟨a, v⟩ := c
    obtain ⟨-, ha, hv, hrest⟩ := Memory.wfFrom_cons.mp hm
    have hreadA := h a ha
    rw [Memory.read_cons_self] at hreadA
    cases n with
    | nil => exact absurd hreadA hv
    | cons d others =>
      obtain ⟨b, w⟩ := d
      obtain ⟨-, hb, hw, hothers⟩ := Memory.wfFrom_cons.mp hn
      have hreadB := h b hb
      rw [Memory.read_cons_self] at hreadB
      obtain rfl : a = b :=
        le_antisymm (Memory.head_le_of_read_ne hm (hreadB ▸ hw)) (Memory.head_le_of_read_ne hn (hreadA ▸ hv))
      obtain rfl : v = w := hreadA.trans (Memory.read_cons_self a w others)
      rw [ih hrest hothers fun addr haddr => Memory.read_rest_eq hrest hothers (h addr haddr)]

/-- States with canonical memories that read alike have the same memory. -/
theorem State.mem_eq_of_keepsMem {s t : State} (hs : s.mem.wf = true) (ht : t.mem.wf = true) (h : KeepsMem s t) :
    s.mem = t.mem := by
  refine Memory.eq_of_read_eq hs ht fun addr haddr => ?_
  have hread := h (BitVec.ofNatLT addr haddr)
  simpa [State.readMem] using hread.symm

/-- Settles O38: canonical memories are told apart by their reads. -/
theorem canonicalMemoriesThatReadAlikeAreEqual : Obligations.CanonicalMemoriesThatReadAlikeAreEqual :=
  ⟨fun _ addr v hm => Memory.wf_write hm addr v, fun _ _ => State.mem_eq_of_keepsMem⟩

end Sys2Proof.Machine
end
